-- ==== Sys2Proof/Word.lean ====
section
/-!
DEFINITION. The cell: a signed integer of `XLEN` = 64 bits (00_scope.md R8, R10, R11; decision D1).

A `Cell` is a 64-bit two's complement word and is always read through `BitVec.toInt`, as a signed integer: R11 says
there is no unsigned interpretation anywhere. Every value of the type is in the range `CELL_MIN .. CELL_MAX`, so no
check that a stored value is a `Cell` is ever needed (notes/assumptions/2.md).
-/

namespace Sys2Proof

/-- A memory cell, a queue element, an operand, an address, or `ip` (00_scope.md R8, R11). -/
abbrev Cell := BitVec 64

end Sys2Proof
end

