-- ==== Sys2Proof/Config.lean ====
section
/-!
DEFINITION. The parameters of the hardware (00_scope.md R8).

`XLEN` is 64 (Word.lean), the queues are unbounded (decision D12), and `MEMSIZE` is an argument of CONSTRUCT. The one
parameter the spec leaves OPEN is `MAXMEM` (decision D15); claims quantify over it (notes/assumptions/9.md).
-/

namespace Sys2Proof.Config

/-- `CELL_MIN` (00_scope.md R8). -/
def cellMin : Int := -9223372036854775808

/-- `CELL_MAX` (00_scope.md R8). -/
def cellMax : Int := 9223372036854775807

/-- The greatest value `MAXMEM` may have, `2^63 - 4` (00_scope.md R8). -/
def maxMemLimit : Nat := 9223372036854775804

/-- `MAXMEM`, the greatest `MEMSIZE` an implementation accepts: any number from 0 to `2^63 - 4`
(00_scope.md R8, 92_eei_decisions.md D15: "A model takes MAXMEM as an argument or quantifies over it"). -/
structure MaxMem where
  val : Nat
  le_limit : val ≤ maxMemLimit
  deriving DecidableEq, Repr

end Sys2Proof.Config
end

