-- ==== Sys2Proof/Syntax.lean ====
section
/-!
DEFINITION. The instructions as data (30_encoding.md R86): one constructor of `Instr` per row of the opcode table.
-/

namespace Sys2Proof

/-- A parameter mode (30_encoding.md R84). -/
inductive Mode where
  | position
  | immediate
  deriving DecidableEq, Repr

/-- A read parameter: its mode and its raw operand (30_encoding.md R88, R99). -/
inductive Src where
  /-- `[n]`: position mode, the value is the cell at address `n`. -/
  | pos (n : Cell)
  /-- `#n`: immediate mode, the value is `n` itself. -/
  | imm (n : Cell)
  deriving DecidableEq, Repr

/-- The nine opcodes (30_encoding.md R86). -/
inductive Opcode where
  | add | mul | input | output | jnz | jz | lt | eq | hlt
  deriving DecidableEq, Repr

/-- The nine instructions (30_encoding.md R86, R99).

`s1`, `s2` are read parameters and `d` the raw operand of the write parameter, a destination address whatever the
encoded digit (R87). `ign` is the decimal number made of all the digits of the instruction word that the decoder
ignores (R87, R93, R94), which lie above the last mode digit of a read parameter: 0 in the canonical encoding (R95).
It has no effect but that a fault records the word it came in (60_exceptions.md R221; notes/assumptions/8.md). -/
inductive Instr where
  /-- ADD, opcode 1 (41_arithmetic.md R140). -/
  | add (s1 s2 : Src) (d : Cell) (ign : Nat)
  /-- MUL, opcode 2 (41_arithmetic.md R141). -/
  | mul (s1 s2 : Src) (d : Cell) (ign : Nat)
  /-- IN, opcode 3 (42_io.md R150). -/
  | input (d : Cell) (ign : Nat)
  /-- OUT, opcode 4 (42_io.md R152). -/
  | output (s1 : Src) (ign : Nat)
  /-- JNZ, opcode 5 (43_jump.md R160). -/
  | jnz (s1 s2 : Src) (ign : Nat)
  /-- JZ, opcode 6 (43_jump.md R161). -/
  | jz (s1 s2 : Src) (ign : Nat)
  /-- LT, opcode 7 (44_compare.md R170). -/
  | lt (s1 s2 : Src) (d : Cell) (ign : Nat)
  /-- EQ, opcode 8 (44_compare.md R171). -/
  | eq (s1 s2 : Src) (d : Cell) (ign : Nat)
  /-- HLT, opcode 99 (45_halt.md R180). -/
  | hlt (ign : Nat)
  deriving DecidableEq, Repr

end Sys2Proof
end

