-- ==== Sys2Proof/WellFormed.lean ====
section
/-!
DEFINITION. When an `Instr` is one the hardware can hold: its instruction word fits a cell.

Operands are cells by their type and modes are the two legal ones by theirs, so the only check is the size of the
ignored digits: the instruction word must be at most `CELL_MAX` = 9223372036854775807 (30_encoding.md R80, R94, R95).
That these bounds say exactly this is the family `WordFits` of Laws/PerInstr.lean.
-/

namespace Sys2Proof

/-- The instruction word of `i` is at most `CELL_MAX`, said as a bound on the ignored digits of each format
(30_encoding.md R82): P3 and P2 ignore the digits from the fifth up, OUT those from the fourth, IN and HLT those from
the third. -/
def Instr.WellFormed (i : Instr) : Bool :=
  match i with
  | .add _ _ _ ign => ign ≤ 922337203685477
  | .mul _ _ _ ign => ign ≤ 922337203685477
  | .input _ ign => ign ≤ 92233720368547758
  | .output _ ign => ign ≤ 9223372036854775
  | .jnz _ _ ign => ign ≤ 922337203685477
  | .jz _ _ ign => ign ≤ 922337203685477
  | .lt _ _ _ ign => ign ≤ 922337203685477
  | .eq _ _ _ ign => ign ≤ 922337203685477
  | .hlt ign => ign ≤ 92233720368547757

end Sys2Proof
end

