-- ==== Sys2Proof/Decode.lean ====
section
/-!
DEFINITION. The decoder and the encoder (30_encoding.md R80 to R95, R101; 40_step_cycle.md R112, R113).

The encoding is decimal. The decoder has two parts, as the hardware has: `decodeWord` uses the instruction word alone
(R83) and gives a descriptor or one of the two decode faults; `Desc.assemble` then pairs it with the raw operands,
which the step reads only after the word has decoded (40_step_cycle.md R113, R114).
-/

namespace Sys2Proof

/-- The opcode's number (30_encoding.md R86). -/
def Opcode.num : Opcode → Nat
  | .add => 1
  | .mul => 2
  | .input => 3
  | .output => 4
  | .jnz => 5
  | .jz => 6
  | .lt => 7
  | .eq => 8
  | .hlt => 99

/-- The opcode with a given number, if the table has one (30_encoding.md R86, R90). -/
def Opcode.ofNum? (n : Nat) : Option Opcode :=
  if n = 1 then some .add
  else if n = 2 then some .mul
  else if n = 3 then some .input
  else if n = 4 then some .output
  else if n = 5 then some .jnz
  else if n = 6 then some .jz
  else if n = 7 then some .lt
  else if n = 8 then some .eq
  else if n = 99 then some .hlt
  else none

/-- `NPARAMS` (30_encoding.md R86). -/
def Opcode.nparams : Opcode → Nat
  | .add => 3
  | .mul => 3
  | .input => 1
  | .output => 1
  | .jnz => 2
  | .jz => 2
  | .lt => 3
  | .eq => 3
  | .hlt => 0

/-- `WRITEPARAM`, 0 when the instruction writes no cell (30_encoding.md R86). -/
def Opcode.writeParam : Opcode → Nat
  | .add => 3
  | .mul => 3
  | .input => 1
  | .output => 0
  | .jnz => 0
  | .jz => 0
  | .lt => 3
  | .eq => 3
  | .hlt => 0

/-- How many read parameters the opcode has; they are parameters 1, 2, ... in order, since a write parameter is always
the last (30_encoding.md R86). -/
def Opcode.nreads (op : Opcode) : Nat :=
  if op.writeParam = 0 then op.nparams else op.nparams - 1

/-- The two ways an instruction word can fail to decode (60_exceptions.md R222, R224). -/
inductive WordError where
  /-- A negative word, or an opcode not in the table (30_encoding.md R90, R91). -/
  | unknownOpcode
  /-- A mode digit 2 to 9 on a read parameter (30_encoding.md R92). -/
  | illegalMode
  deriving DecidableEq, Repr

/-- The Decoder's output: "an Instruction descriptor pairing the opcode with the per-parameter modes"
(30_encoding.md R83). A mode the opcode has no read parameter for is `position`. `ign` is the number made of the
ignored digits. -/
structure Desc where
  op : Opcode
  m1 : Mode
  m2 : Mode
  ign : Nat
  deriving DecidableEq, Repr

/-- `digit_k(w)`: decimal digit `k`, digit 1 the least significant (00_scope.md R9). -/
def digit (k w : Nat) : Nat := w / 10 ^ (k - 1) % 10

/-- The mode digit of parameter `k` (30_encoding.md R80) as a mode, if it is 0 or 1 (R84, R92). -/
def readMode? (w k : Nat) : Option Mode :=
  if digit (k + 2) w = 0 then some .position
  else if digit (k + 2) w = 1 then some .immediate
  else none

/-- The mode stage (40_step_cycle.md R113): the digits of the read parameters must be 0 or 1; the write parameter's
digit is overridden before any check (30_encoding.md R87) and the digits beyond are never examined (R93, R94). -/
def decodeModes (op : Opcode) (w : Nat) : Except WordError Desc :=
  match op.nreads with
  | 0 => .ok ⟨op, .position, .position, w / 100⟩
  | 1 =>
    match readMode? w 1 with
    | some m1 => .ok ⟨op, m1, .position, w / 1000⟩
    | none => .error .illegalMode
  | _ =>
    match readMode? w 1, readMode? w 2 with
    | some m1, some m2 => .ok ⟨op, m1, m2, w / 10000⟩
    | _, _ => .error .illegalMode

/-- The decode of an instruction word (40_step_cycle.md R112, R113; 30_encoding.md R90 to R92). -/
def decodeWord (w : Cell) : Except WordError Desc :=
  if w.toInt < 0 then .error .unknownOpcode
  else
    match Opcode.ofNum? (w.toNat % 100) with
    | none => .error .unknownOpcode
    | some op => decodeModes op w.toNat

/-- The read parameter a mode and a raw operand make (30_encoding.md R88). -/
def Mode.src : Mode → Cell → Src
  | .position, n => .pos n
  | .immediate, n => .imm n

/-- The instruction a descriptor makes with its raw operands `raw[1], raw[2], ...` (30_encoding.md R81, R88). Only the
first `NPARAMS` of them are used. -/
def Desc.assemble (d : Desc) (raw : List Cell) : Instr :=
  match d.op with
  | .add => .add (d.m1.src (raw.getD 0 0)) (d.m2.src (raw.getD 1 0)) (raw.getD 2 0) d.ign
  | .mul => .mul (d.m1.src (raw.getD 0 0)) (d.m2.src (raw.getD 1 0)) (raw.getD 2 0) d.ign
  | .input => .input (raw.getD 0 0) d.ign
  | .output => .output (d.m1.src (raw.getD 0 0)) d.ign
  | .jnz => .jnz (d.m1.src (raw.getD 0 0)) (d.m2.src (raw.getD 1 0)) d.ign
  | .jz => .jz (d.m1.src (raw.getD 0 0)) (d.m2.src (raw.getD 1 0)) d.ign
  | .lt => .lt (d.m1.src (raw.getD 0 0)) (d.m2.src (raw.getD 1 0)) (raw.getD 2 0) d.ign
  | .eq => .eq (d.m1.src (raw.getD 0 0)) (d.m2.src (raw.getD 1 0)) (raw.getD 2 0) d.ign
  | .hlt => .hlt d.ign

/-- Why a list of cells begins with no instruction. -/
inductive DecodeError where
  /-- The first cell is no instruction word. -/
  | word (e : WordError)
  /-- The list ends before the instruction does. -/
  | truncated
  deriving DecidableEq, Repr

/-- Decode the instruction at the front of a list of cells and give the cells after it. Total on any cells. -/
def decode (cells : List Cell) : Except DecodeError (Instr × List Cell) :=
  match cells with
  | [] => .error .truncated
  | w :: rest =>
    match decodeWord w with
    | .error e => .error (.word e)
    | .ok d =>
      if d.op.nparams ≤ rest.length then .ok (d.assemble rest, rest.drop d.op.nparams)
      else .error .truncated

/-! ## The encoder (30_encoding.md R82, R99) -/

/-- The mode digit (30_encoding.md R84). -/
def Mode.num : Mode → Nat
  | .position => 0
  | .immediate => 1

/-- The mode of a read parameter. -/
def Src.mode : Src → Mode
  | .pos _ => .position
  | .imm _ => .immediate

/-- The raw operand of a read parameter. -/
def Src.raw : Src → Cell
  | .pos n => n
  | .imm n => n

/-- The instruction's opcode. -/
def Instr.opcode : Instr → Opcode
  | .add _ _ _ _ => .add
  | .mul _ _ _ _ => .mul
  | .input _ _ => .input
  | .output _ _ => .output
  | .jnz _ _ _ => .jnz
  | .jz _ _ _ => .jz
  | .lt _ _ _ _ => .lt
  | .eq _ _ _ _ => .eq
  | .hlt _ => .hlt

/-- The descriptor the decoder gives for the instruction's word. -/
def Instr.desc : Instr → Desc
  | .add s1 s2 _ ign => ⟨.add, s1.mode, s2.mode, ign⟩
  | .mul s1 s2 _ ign => ⟨.mul, s1.mode, s2.mode, ign⟩
  | .input _ ign => ⟨.input, .position, .position, ign⟩
  | .output s1 ign => ⟨.output, s1.mode, .position, ign⟩
  | .jnz s1 s2 ign => ⟨.jnz, s1.mode, s2.mode, ign⟩
  | .jz s1 s2 ign => ⟨.jz, s1.mode, s2.mode, ign⟩
  | .lt s1 s2 _ ign => ⟨.lt, s1.mode, s2.mode, ign⟩
  | .eq s1 s2 _ ign => ⟨.eq, s1.mode, s2.mode, ign⟩
  | .hlt ign => ⟨.hlt, .position, .position, ign⟩

/-- The instruction word of a descriptor, as a number: `opcode + 100*m1 + 1000*m2` (30_encoding.md R99) with the
ignored digits above the last mode digit of a read parameter. -/
def Desc.wordNat (d : Desc) : Nat :=
  match d.op.nreads with
  | 0 => d.op.num + 100 * d.ign
  | 1 => d.op.num + 100 * d.m1.num + 1000 * d.ign
  | _ => d.op.num + 100 * d.m1.num + 1000 * d.m2.num + 10000 * d.ign

/-- The instruction word as a number. -/
def Instr.wordNat (i : Instr) : Nat := i.desc.wordNat

/-- The instruction word: cell 0 of the instruction. -/
def Instr.word (i : Instr) : Cell := BitVec.ofNat 64 i.wordNat

/-- The raw operands: the cells after the instruction word (30_encoding.md R81). -/
def Instr.operands : Instr → List Cell
  | .add s1 s2 d _ => [s1.raw, s2.raw, d]
  | .mul s1 s2 d _ => [s1.raw, s2.raw, d]
  | .input d _ => [d]
  | .output s1 _ => [s1.raw]
  | .jnz s1 s2 _ => [s1.raw, s2.raw]
  | .jz s1 s2 _ => [s1.raw, s2.raw]
  | .lt s1 s2 d _ => [s1.raw, s2.raw, d]
  | .eq s1 s2 d _ => [s1.raw, s2.raw, d]
  | .hlt _ => []

/-- The cells of an instruction (30_encoding.md R81, R82). With `ign = 0` this is the canonical encoding (R95). -/
def encode (i : Instr) : List Cell := i.word :: i.operands

/-! ## Words as the opcode table numbers their bits -/

/-- The cells of an instruction whose bits, numbered with bit 0 the least significant of the first cell and a later
cell's bits counting on from it, are the low `nbits` bits of `w`, every bit above them 0. Four cells, the longest
instruction (notes/assumptions/15.md). -/
def tableCells (nbits w : Nat) : List Cell :=
  let v := w % 2 ^ nbits
  [BitVec.ofNat 64 v, BitVec.ofNat 64 (v / 2 ^ 64), BitVec.ofNat 64 (v / 2 ^ 128), BitVec.ofNat 64 (v / 2 ^ 192)]

/-- The instruction the decoder reads from such bits. -/
def decodeTableWord (nbits w : Nat) : Option Instr :=
  match decode (tableCells nbits w) with
  | .ok (i, _) => some i
  | .error _ => none

end Sys2Proof
end

