-- ==== Sys2Proof/Machine/State.lean ====
section
/-!
DEFINITION. The architectural state of one machine instance, whole (10_state.md, R20 to R36):
`( MEMSIZE, mem[0 .. MEMSIZE-1], ip, status, cause, finfo, inq, outq )`, and nothing else.
-/

namespace Sys2Proof.Machine

/-- Memory: the cells that are not 0, as (address, value) pairs in canonical form: addresses strictly rising, no pair
with value 0. A cell below `MEMSIZE` that is not listed is 0 (10_state.md R27, R36: "trailing cells default to 0").
Memory is addressed by cell and a cell has no bytes (20_memory.md R52; notes/assumptions/1.md). -/
abbrev Memory := List (Nat × Cell)

/-- The canonical form: equal memories are equal lists. -/
abbrev Memory.wf (m : Memory) : Prop :=
  m.Pairwise (fun p q => p.1 < q.1) ∧ ∀ p ∈ m, p.2 ≠ 0

/-- The run-state register (10_state.md R25). -/
inductive Status where
  | running
  /-- The last step found opcode 3 with an empty input queue; not terminal. -/
  | blocked
  /-- Opcode 99 was executed; terminal. -/
  | halted
  /-- A fatal condition occurred; terminal. -/
  | faulted
  deriving DecidableEq, Repr

/-- The values of the `cause` register (60_exceptions.md R221). -/
inductive Cause where
  | none
  | unknownOpcode
  | outOfBounds
  | illegalMode
  | arithmeticOverflow
  deriving DecidableEq, Repr

/-- A fatal condition with the value it records (60_exceptions.md R221): the instruction word `w` or the address `a`.
These are the hardware's exceptions; taking one (`takeFault`) is a next state, not a `Fault`. -/
inductive Exc where
  | unknownOpcode (w : Cell)
  | outOfBounds (a : Cell)
  | illegalMode (w : Cell)
  | arithmeticOverflow (w : Cell)
  deriving DecidableEq, Repr

/-- The state of one instance (10_state.md, head and R33). -/
structure State where
  /-- `MEMSIZE` (R27): constant from CONSTRUCT to the next CONSTRUCT. -/
  memSize : Nat
  /-- The memory cells (R27, R28). -/
  mem : Memory
  /-- The instruction pointer, a signed cell (R21). -/
  ip : Cell
  /-- The run-state register (R25). -/
  status : Status
  /-- The fault record: what happened (R26). -/
  cause : Cause
  /-- The fault record: the instruction word or the address (R26). -/
  finfo : Cell
  /-- The input queue, front first (R29). -/
  inq : List Cell
  /-- The output queue, front first (R30). -/
  outq : List Cell
  deriving DecidableEq, Repr

/-- The reasons a step could stop outside the machine's own exceptions. There are none: every fatal condition of the
spec is taken inside the machine (60_exceptions.md R226: status becomes Faulted), and the spec leaves no behaviour
undefined (93_implementation_defined.md Part 1). No step raises one (safe; notes/assumptions/5.md). -/
inductive Fault where
  deriving DecidableEq, Repr

/-- The reasons the model could refuse an instruction. -/
inductive Refusal where
  /-- Raised by an arm of `exec` whose instruction has no meaning yet (safe). No arm raises it: all nine have one. -/
  | notModelled (mnemonic : String)
  deriving DecidableEq, Repr

/-- What a step answers. -/
abbrev Outcome := Host.Outcome State Fault Refusal

/-- The state CONSTRUCT leaves (10_state.md R36) when the program is empty and no capacity is given: `MEMSIZE` is 0
and memory has no cell. A program comes from outside, by a CONSTRUCT of its own (notes/assumptions/3.md, 4.md). -/
def State.reset : State where
  memSize := 0
  mem := []
  ip := 0
  status := .running
  cause := .none
  finfo := 0
  inq := []
  outq := []

end Sys2Proof.Machine
end

