-- ==== Sys2Proof/Machine/Ops.lean ====
section
/-!
DEFINITION. The shared operations: memory access, taking a fault, committing an instruction, the queues.
-/

namespace Sys2Proof.Machine

/-! ## Memory as a list in canonical form -/

/-- The value listed at address `a`, 0 where nothing is listed (10_state.md R36). -/
def Memory.get (m : Memory) (a : Nat) : Cell :=
  match m with
  | [] => 0
  | (k, v) :: t => if a = k then v else Memory.get t a

/-- Put `v` at address `a`, keeping the canonical form: a 0 is not listed. -/
def Memory.set (m : Memory) (a : Nat) (v : Cell) : Memory :=
  match m with
  | [] => if v = 0 then [] else [(a, v)]
  | (k, x) :: t =>
    if a < k then (if v = 0 then (k, x) :: t else (a, v) :: (k, x) :: t)
    else if a = k then (if v = 0 then t else (a, v) :: t)
    else (k, x) :: Memory.set t a v

/-- Cells laid out from address `a` on. -/
def Memory.ofCells (a : Nat) (vs : List Cell) : Memory :=
  match vs with
  | [] => []
  | v :: t => if v = 0 then Memory.ofCells (a + 1) t else (a, v) :: Memory.ofCells (a + 1) t

/-! ## The two access primitives -/

/-- `0 <= a < MEMSIZE` (20_memory.md R50, R51, R56). -/
abbrev State.inBounds (s : State) (a : Cell) : Prop := 0 ≤ a.toInt ∧ a.toInt < s.memSize

/-- `MemRead(a, 1)` (20_memory.md R50). -/
def memRead (s : State) (a : Cell) : Except Exc Cell :=
  if s.inBounds a then .ok (s.mem.get a.toInt.toNat) else .error (.outOfBounds a)

/-- `MemWrite(a, 1, v)` (20_memory.md R51). -/
def memWrite (s : State) (a v : Cell) : Except Exc State :=
  if s.inBounds a then .ok { s with mem := s.mem.set a.toInt.toNat v } else .error (.outOfBounds a)

/-- Read `n` cells from address `a` on, in ascending order; the first address out of range is reported
(40_step_cycle.md R114). -/
def readCells (s : State) (a : Cell) : Nat → Except Exc (List Cell)
  | 0 => .ok []
  | n + 1 =>
    match memRead s a with
    | .error e => .error e
    | .ok c =>
      match readCells s (a + 1) n with
      | .error e => .error e
      | .ok cs => .ok (c :: cs)

/-! ## Fatal conditions -/

/-- The code of a fatal condition (60_exceptions.md R221). -/
def Exc.cause : Exc → Cause
  | .unknownOpcode _ => .unknownOpcode
  | .outOfBounds _ => .outOfBounds
  | .illegalMode _ => .illegalMode
  | .arithmeticOverflow _ => .arithmeticOverflow

/-- What `finfo` records (60_exceptions.md R221). -/
def Exc.info : Exc → Cell
  | .unknownOpcode w => w
  | .outOfBounds a => a
  | .illegalMode w => w
  | .arithmeticOverflow w => w

/-- The numeric code of `cause` (60_exceptions.md R221). -/
def Cause.code : Cause → Nat
  | .none => 0
  | .unknownOpcode => 1
  | .outOfBounds => 2
  | .illegalMode => 3
  | .arithmeticOverflow => 4

/-- The numeric code of `status` (10_state.md R25). -/
def Status.code : Status → Nat
  | .running => 0
  | .blocked => 1
  | .halted => 2
  | .faulted => 3

/-- Fault entry, the meaning of `raise` (60_exceptions.md R226): `status`, `cause` and `finfo` are written and nothing
else; control goes nowhere. There is no return from a fault (R229): only CONSTRUCT leaves `Faulted`. -/
def takeFault (e : Exc) (s : State) : State :=
  { s with status := .faulted, cause := e.cause, finfo := e.info }

/-! ## Commit -/

/-- The end of an instruction's execute arm: it completed with a new state, or a test of it failed and the fault is
taken in the state the instruction STARTED from, so that a step is all or nothing (40_step_cycle.md R123). -/
def finish (s : State) (r : Except Exc State) : Outcome :=
  match r with
  | .ok t => .next t
  | .error e => .next (takeFault e s)

/-- The commit of an instruction of `n` parameters that does not jump: `ip <- ip + 1 + n`, `status <- Running`
(40_step_cycle.md R120, R121). -/
def State.advance (n : Nat) (s : State) : State :=
  { s with ip := s.ip + BitVec.ofNat 64 (1 + n), status := .running }

/-- The commit of a taken jump: `ip <- target` unchecked, `status <- Running` (43_jump.md R162; 40_step_cycle.md
R120, R121). -/
def State.jumpTo (target : Cell) (s : State) : State :=
  { s with ip := target, status := .running }

/-- The suspension of an IN that finds `inq` empty: only `status` is written (42_io.md R150, R151). -/
def State.block (s : State) : State := { s with status := .blocked }

/-- HLT: only `status` is written (45_halt.md R180). -/
def State.halt (s : State) : State := { s with status := .halted }

/-! ## The queues -/

/-- Make `q` the input queue. -/
def State.withInq (q : List Cell) (s : State) : State := { s with inq := q }

/-- `PushBack(inq, v)` (46_host_interface.md R194). -/
def State.pushIn (v : Cell) (s : State) : State := { s with inq := s.inq ++ [v] }

/-- `PushBack(outq, v)` (42_io.md R152). -/
def State.pushOut (v : Cell) (s : State) : State := { s with outq := s.outq ++ [v] }

/-- Make `q` the output queue. -/
def State.withOutq (q : List Cell) (s : State) : State := { s with outq := q }

end Sys2Proof.Machine
end

