-- ==== Sys2Proof/Machine/Flags.lean ====
section
/-!
DEFINITION. What stands in the place of flags. The hardware has no status flags or condition codes
(10_state.md R24): comparisons write 1 or 0 to memory, jumps test a value against zero, and ADD and MUL test whether
the exact result fits a cell.
-/

namespace Sys2Proof.Machine

/-- The exact result as a cell, if `CELL_MIN <= r <= CELL_MAX` (41_arithmetic.md R142). -/
def narrow? (r : Int) : Option Cell :=
  if Config.cellMin ≤ r ∧ r ≤ Config.cellMax then some (BitVec.ofInt 64 r) else none

/-- The result of ADD or MUL from the exact value, or the overflow fault (41_arithmetic.md R140 to R142). `w` is the
instruction word, which the fault records (60_exceptions.md R221, R225). -/
def exactOrOverflow (w : Cell) (r : Int) : Except Exc Cell :=
  match narrow? r with
  | some c => .ok c
  | none => .error (.arithmeticOverflow w)

/-- The result of a comparison, the integer 1 or 0 (44_compare.md R170, R171). -/
def boolCell (b : Bool) : Cell := if b then 1 else 0

/-- `p1 < p2` as signed integers (44_compare.md R170). -/
def signedLt (a b : Cell) : Bool := a.toInt < b.toInt

end Sys2Proof.Machine
end

