-- ==== Sys2Proof/Machine/Operands.lean ====
section
/-!
DEFINITION. The parameter resolver, the addressing-mode multiplexer (40_step_cycle.md R116 to R119).

A write parameter needs no resolving: its raw operand is the destination address, checked only by the write itself
(R118).
-/

namespace Sys2Proof.Machine

/-- The value of a read parameter: position mode reads the cell (R116), immediate mode is the raw operand (R117). -/
def resolve (s : State) (p : Src) : Except Exc Cell :=
  match p with
  | .pos n => memRead s n
  | .imm n => .ok n

/-- Two read parameters, in ascending order, both of them whether or not they are used (R119). -/
def resolve2 (s : State) (s1 s2 : Src) : Except Exc (Cell × Cell) :=
  match resolve s s1 with
  | .error e => .error e
  | .ok a =>
    match resolve s s2 with
    | .error e => .error e
    | .ok b => .ok (a, b)

/-- The shape of ADD, MUL, LT and EQ (format P3): resolve, compute, write, advance; the reads come before the write
(20_memory.md R59) and the computation's own test before the destination's (60_exceptions.md R228). -/
def computeStore (s : State) (s1 s2 : Src) (d : Cell) (f : Cell → Cell → Except Exc Cell) : Except Exc State :=
  match resolve2 s s1 s2 with
  | .error e => .error e
  | .ok (a, b) =>
    match f a b with
    | .error e => .error e
    | .ok r =>
      match memWrite s d r with
      | .error e => .error e
      | .ok t => .ok (t.advance 3)

/-- The shape of JNZ and JZ (format P2): resolve both parameters (43_jump.md R163), then jump or fall through. -/
def condJump (s : State) (s1 s2 : Src) (taken : Cell → Bool) : Except Exc State :=
  match resolve2 s s1 s2 with
  | .error e => .error e
  | .ok (a, b) => .ok (if taken a then s.jumpTo b else s.advance 2)

end Sys2Proof.Machine
end

