-- ==== Sys2Proof/Machine/Arithmetic.lean ====
section
/-!
DEFINITION. ADD and MUL (41_arithmetic.md R140 to R142).
-/

namespace Sys2Proof.Machine

/-- ADD (41_arithmetic.md R140). -/
def execAdd (s1 s2 : Src) (d : Cell) (ign : Nat) (s : State) : Outcome :=
  finish s (computeStore s s1 s2 d fun a b => exactOrOverflow (Instr.add s1 s2 d ign).word (a.toInt + b.toInt))

/-- MUL (41_arithmetic.md R141). -/
def execMul (s1 s2 : Src) (d : Cell) (ign : Nat) (s : State) : Outcome :=
  finish s (computeStore s s1 s2 d fun a b => exactOrOverflow (Instr.mul s1 s2 d ign).word (a.toInt * b.toInt))

end Sys2Proof.Machine
end

