-- ==== Sys2Proof/Machine/Compare.lean ====
section
/-!
DEFINITION. LT and EQ (44_compare.md R170, R171).
-/

namespace Sys2Proof.Machine

/-- LT (44_compare.md R170): signed order, no subtraction, so no overflow. -/
def execLt (s1 s2 : Src) (d : Cell) (_ign : Nat) (s : State) : Outcome :=
  finish s (computeStore s s1 s2 d fun a b => .ok (boolCell (signedLt a b)))

/-- EQ (44_compare.md R171). -/
def execEq (s1 s2 : Src) (d : Cell) (_ign : Nat) (s : State) : Outcome :=
  finish s (computeStore s s1 s2 d fun a b => .ok (boolCell (a == b)))

end Sys2Proof.Machine
end

