-- ==== Sys2Proof/Machine/Halt.lean ====
section
/-!
DEFINITION. HLT (45_halt.md R180 to R182).
-/

namespace Sys2Proof.Machine

/-- HLT (45_halt.md R180): `status <- Halted` and nothing else; `ip` stays on the instruction. -/
def execHlt (_ign : Nat) (s : State) : Outcome := .next s.halt

end Sys2Proof.Machine
end

