-- ==== Sys2Proof/Machine/Io.lean ====
section
/-!
DEFINITION. IN and OUT (42_io.md R150 to R152).
-/

namespace Sys2Proof.Machine

/-- IN (42_io.md R150): the empty-queue test comes before the destination check, and a fault consumes nothing. The
ignored digits `_ign` have no effect: no fault of IN records the word. -/
def execInput (d : Cell) (_ign : Nat) (s : State) : Outcome :=
  match s.inq with
  | [] => .next s.block
  | v :: rest =>
    finish s
      (match memWrite s d v with
       | .error e => .error e
       | .ok t => .ok ((t.withInq rest).advance 1))

/-- OUT (42_io.md R152). -/
def execOutput (s1 : Src) (_ign : Nat) (s : State) : Outcome :=
  finish s
    (match resolve s s1 with
     | .error e => .error e
     | .ok a => .ok ((s.pushOut a).advance 1))

end Sys2Proof.Machine
end

