-- ==== Sys2Proof/Machine/Jump.lean ====
section
/-!
DEFINITION. JNZ and JZ (43_jump.md R160 to R164).
-/

namespace Sys2Proof.Machine

/-- JNZ (43_jump.md R160). -/
def execJnz (s1 s2 : Src) (_ign : Nat) (s : State) : Outcome :=
  finish s (condJump s s1 s2 fun a => a != 0)

/-- JZ (43_jump.md R161). -/
def execJz (s1 s2 : Src) (_ign : Nat) (s : State) : Outcome :=
  finish s (condJump s s1 s2 fun a => a == 0)

end Sys2Proof.Machine
end

