-- ==== Sys2Proof/Machine/Dispatch.lean ====
section
/-!
DEFINITION. Stages 4 and 5 of the step (40_step_cycle.md R110): one arm per instruction (30_encoding.md R86).
-/

namespace Sys2Proof.Machine

def exec (i : Instr) (s : State) : Host.Outcome State Fault Refusal :=
  match i with
  | .add s1 s2 d ign => Sys2Proof.Machine.execAdd s1 s2 d ign s
  | .mul s1 s2 d ign => Sys2Proof.Machine.execMul s1 s2 d ign s
  | .input d ign => Sys2Proof.Machine.execInput d ign s
  | .output s1 ign => Sys2Proof.Machine.execOutput s1 ign s
  | .jnz s1 s2 ign => Sys2Proof.Machine.execJnz s1 s2 ign s
  | .jz s1 s2 ign => Sys2Proof.Machine.execJz s1 s2 ign s
  | .lt s1 s2 d ign => Sys2Proof.Machine.execLt s1 s2 d ign s
  | .eq s1 s2 d ign => Sys2Proof.Machine.execEq s1 s2 d ign s
  | .hlt ign => Sys2Proof.Machine.execHlt ign s

end Sys2Proof.Machine
end

