-- ==== Sys2Proof/Machine/Fetch.lean ====
section
/-!
DEFINITION. Stages 1 to 3 of the step: fetch, decode, raw operand fetch (40_step_cycle.md R110 to R114); and the placing
of an instruction where the next step fetches it.
-/

namespace Sys2Proof.Machine

/-- The decode fault a bad instruction word raises; `finfo` is the word (60_exceptions.md R221, R222, R224). -/
def wordExc (w : Cell) : WordError → Exc
  | .unknownOpcode => .unknownOpcode w
  | .illegalMode => .illegalMode w

/-- Fetch the word at `ip` (R111), decode it (R112, R113), then read its raw operands (R114). Only reads. -/
def fetchInstr (s : State) : Except Exc Instr :=
  match memRead s s.ip with
  | .error e => .error e
  | .ok w =>
    match decodeWord w with
    | .error e => .error (wordExc w e)
    | .ok d =>
      match readCells s (s.ip + 1) d.op.nparams with
      | .error e => .error e
      | .ok raw => .ok (d.assemble raw)

/-- Store cells from the address number `a` on. -/
def storeCells (m : Memory) (a : Nat) (cs : List Cell) : Memory :=
  match cs with
  | [] => m
  | c :: t => storeCells (m.set a c) (a + 1) t

/-- Where an instruction can be placed for the next fetch: at `ip` if four cells from there lie below the greatest
`MEMSIZE` (00_scope.md R8), else at the entry point 0 (10_state.md R36). -/
def placeAt (s : State) : Nat :=
  if 0 ≤ s.ip.toInt ∧ s.ip.toInt + 4 ≤ Config.maxMemLimit then s.ip.toInt.toNat else 0

/-- Load four cells where the next step fetches, and make that step fetch: memory reaches past them, `ip` is on them,
and a terminal status, in which no step fetches, gives way to Running with no fault recorded. It stands for the load
that CONSTRUCT makes from outside (notes/assumptions/4.md). -/
def loadAtIp (s : State) (cs : List Cell) : State :=
  let a := placeAt s
  { s with
    memSize := max s.memSize (a + 4)
    mem := storeCells s.mem a cs
    ip := BitVec.ofNat 64 a
    status := if s.status = .halted ∨ s.status = .faulted then .running else s.status
    cause := if s.status = .faulted then .none else s.cause
    finfo := if s.status = .faulted then 0 else s.finfo }

end Sys2Proof.Machine
end

