-- ==== Sys2Proof/Machine/Step.lean ====
section
/-!
DEFINITION. `Step()` (40_step_cycle.md R110). Its result to the host is read off the state after it, with which R121
says it always agrees (`State.result` in Machine/Commands.lean).
-/

namespace Sys2Proof.Machine

/-- One step of the core. In `Halted` and `Faulted` it does nothing (R122); in `Running` and `Blocked`, alike (42_io.md
R151), it fetches and decodes the instruction at `ip` and executes it, or takes the first fault found on the way
(60_exceptions.md R228). -/
def step (s : State) : Host.Outcome State Fault Refusal :=
  match s.status with
  | .halted => .next s
  | .faulted => .next s
  | .running | .blocked =>
    match fetchInstr s with
    | .ok i => exec i s
    | .error e => .next (takeFault e s)

/-- `s` with the instruction whose bits are the low `nbits` bits of `w` (numbered as spec/opcode_table.json's) where
the next step fetches, so that the next step runs it. -/
def State.withFetchWord (s : State) (nbits w : Nat) : State := loadAtIp s (tableCells nbits w)

end Sys2Proof.Machine
end

