-- ==== Sys2Proof/Machine/Loader.lean ====
section
/-!
DEFINITION. CONSTRUCT (46_host_interface.md R191), the program image and its text form (30_encoding.md R97, R98), and
the cells an assembly listing emits (R99).

A text is a list of characters. Numbers in a program and the capacity are integers, since CONSTRUCT is where a value
outside `Cell` can be offered and is refused (decisions D15, D21; notes/assumptions/13.md).
-/

namespace Sys2Proof.Machine

/-! ## The text form (30_encoding.md R98) -/

/-- `ws`: space, tab, carriage return or line feed. -/
def isWs (c : Char) : Bool := c = ' ' || c = '\t' || c = '\r' || c = '\n'

/-- `digit`. -/
def isDig (c : Char) : Bool := '0' ≤ c && c ≤ '9'

/-- The value of a run of digits; leading zeros have no meaning. -/
def digitsVal (ds : List Char) : Nat := ds.foldl (fun acc c => 10 * acc + (c.toNat - '0'.toNat)) 0

/-- `digit+`. -/
def parseNat (ds : List Char) : Option Nat :=
  if ds ≠ [] ∧ ds.all isDig then some (digitsVal ds) else none

/-- `int := "-"? digit+`. -/
def parseInt (t : List Char) : Option Int :=
  match t with
  | '-' :: ds => (parseNat ds).map fun (n : Nat) => -(n : Int)
  | ds => (parseNat ds).map fun (n : Nat) => (n : Int)

/-- A field without the white space around it. -/
def trimWs (t : List Char) : List Char := ((t.dropWhile isWs).reverse.dropWhile isWs).reverse

/-- The fields between commas, at least one. -/
def splitCommas (t : List Char) : List (List Char) :=
  match t with
  | [] => [[]]
  | c :: cs =>
    if c = ',' then [] :: splitCommas cs
    else
      match splitCommas cs with
      | [] => [[c]]
      | f :: fs => (c :: f) :: fs

/-- The integer of every field, or nothing if one of them is ill-formed. -/
def parseFields (fs : List (List Char)) : Option (List Int) :=
  match fs with
  | [] => some []
  | f :: t =>
    match parseInt (trimWs f), parseFields t with
    | some v, some vs => some (v :: vs)
    | _, _ => none

/-- `program := ws int ( ws "," ws int )* ws`. -/
def parseText (t : List Char) : Option (List Int) := parseFields (splitCommas t)

/-! ## CONSTRUCT (46_host_interface.md R191) -/

/-- A program: "either a numeric sequence or a comma-separated decimal string" (30_encoding.md R97). -/
inductive Source where
  | sequence (vs : List Int)
  | text (t : List Char)
  deriving DecidableEq, Repr

/-- The integers of a program, unless its text is ill-formed. -/
def Source.values : Source → Option (List Int)
  | .sequence vs => some vs
  | .text t => parseText t

/-- The integers as cells, unless one lies outside `Cell`. -/
def toCells (vs : List Int) : Option (List Cell) :=
  match vs with
  | [] => some []
  | v :: t =>
    match narrow? v, toCells t with
    | some c, some cs => some (c :: cs)
    | _, _ => none

/-- The state after CONSTRUCT of these cells with this `MEMSIZE` (10_state.md R36; 70_reset_and_hazards.md R260). -/
def freshState (prog : List Cell) (size : Nat) : State where
  memSize := size
  mem := Memory.ofCells 0 prog
  ip := 0
  status := .running
  cause := .none
  finfo := 0
  inq := []
  outq := []

/-- CONSTRUCT(program) and CONSTRUCT(program, capacity) (R191; decision D15): the new instance, or `none` when it is
refused: the text is ill-formed, a value is outside `Cell`, the capacity is less than the program's length, or the
resulting `MEMSIZE` is greater than `MAXMEM`. -/
def construct (mm : Config.MaxMem) (src : Source) (cap : Option Int) : Option State :=
  match src.values with
  | none => none
  | some vs =>
    match toCells vs with
    | none => none
    | some prog =>
      let size : Int := cap.getD prog.length
      if size < prog.length ∨ (mm.val : Int) < size then none
      else some (freshState prog size.toNat)

/-! ## Assembly listings (30_encoding.md R99) -/

/-- A line of a listing: an instruction or `DATA n, n, ...`. -/
inductive AsmItem where
  | instr (i : Instr)
  | data (ns : List Cell)
  deriving DecidableEq, Repr

/-- The cells a listing emits (R99). With `ign = 0` in its instructions they are the table's. -/
def emit (items : List AsmItem) : List Cell :=
  match items with
  | [] => []
  | .instr i :: t => encode i ++ emit t
  | .data ns :: t => ns ++ emit t

/-- `n` as a decimal integer. -/
def intText (n : Cell) : String := toString n.toInt

/-- A read operand: `[n]` or `#n` (R99). -/
def srcText : Src → String
  | .pos n => "[" ++ intText n ++ "]"
  | .imm n => "#" ++ intText n

/-- A write operand: always `[n]` (R99). -/
def dstText (n : Cell) : String := "[" ++ intText n ++ "]"

/-- The line of a listing that stands for an instruction (R99). The ignored digits have no notation. -/
def instrText : Instr → String
  | .add s1 s2 d _ => "ADD " ++ srcText s1 ++ ", " ++ srcText s2 ++ ", " ++ dstText d
  | .mul s1 s2 d _ => "MUL " ++ srcText s1 ++ ", " ++ srcText s2 ++ ", " ++ dstText d
  | .input d _ => "IN " ++ dstText d
  | .output s1 _ => "OUT " ++ srcText s1
  | .jnz s1 s2 _ => "JNZ " ++ srcText s1 ++ ", " ++ srcText s2
  | .jz s1 s2 _ => "JZ " ++ srcText s1 ++ ", " ++ srcText s2
  | .lt s1 s2 d _ => "LT " ++ srcText s1 ++ ", " ++ srcText s2 ++ ", " ++ dstText d
  | .eq s1 s2 d _ => "EQ " ++ srcText s1 ++ ", " ++ srcText s2 ++ ", " ++ dstText d
  | .hlt _ => "HLT"

/-- A line of a listing as the spec writes it (R99). -/
def AsmItem.text : AsmItem → String
  | .instr i => instrText i
  | .data ns => "DATA " ++ String.intercalate ", " (ns.map intText)

end Sys2Proof.Machine
end

