-- ==== Sys2Proof/Machine/Commands.lean ====
section
/-!
DEFINITION. The host interface (46_host_interface.md R190 to R206): every command as an atomic transaction on one
instance. The host touches an instance only between commands (R197), so a command is a function from the state before
to the state after and a response.
-/

namespace Sys2Proof.Machine

/-- The results of STEP and RUN (40_step_cycle.md R110, R121). -/
inductive StepResult where
  /-- `Continue`. -/
  | cont
  | blocked
  | halted
  | faulted (cause : Cause) (finfo : Cell)
  deriving DecidableEq, Repr

/-- The result of the step that ended in this state: "after every step `status` and the returned result agree, with
`Continue` corresponding to `Running`" (R121). -/
def State.result (s : State) : StepResult :=
  match s.status with
  | .running => .cont
  | .blocked => .blocked
  | .halted => .halted
  | .faulted => .faulted s.cause s.finfo

/-- RUN (46_host_interface.md R200): `loop { r <- Step() ; if r != Continue : return r }`, as far as `fuel` steps go;
`none` when it has not returned after that many (R201; notes/assumptions/10.md). -/
def runFor (fuel : Nat) (s : State) : Option (State × StepResult) :=
  match fuel with
  | 0 => none
  | n + 1 =>
    match step s with
    | .next t => if t.result = .cont then runFor n t else some (t, t.result)
    | .fault _ => none
    | .refused _ => none

/-- RUN from `s` returns `r` and leaves `t`. -/
def RunReturns (s t : State) (r : StepResult) : Prop := ∃ fuel, runFor fuel s = some (t, r)

/-- RUN from `s` never returns (R201). -/
def RunHangs (s : State) : Prop := ∀ fuel, runFor fuel s = none

/-- The commands (R190). The last four before STEP are the general queue access of R196. -/
inductive Command where
  | construct (src : Source) (cap : Option Int)
  | getMem (a : Cell)
  | setMem (a v : Cell)
  | inPush (v : Cell)
  | outPop
  | readInq
  | readOutq
  | replaceInq (q : List Cell)
  | replaceOutq (q : List Cell)
  | step
  | run
  deriving DecidableEq, Repr

/-- What the host receives. -/
inductive Response where
  /-- The command was refused: CONSTRUCT with a bad argument (R191), or no instance exists (decision D20). -/
  | refused
  /-- The command was performed and returns nothing. -/
  | ack
  /-- A command that returns a value returned none, the instance being Faulted (R206). -/
  | noValue
  | value (v : Cell)
  /-- OUT_POP found `outq` empty (R195). -/
  | empty
  | queue (q : List Cell)
  | result (r : StepResult)
  deriving DecidableEq, Repr

/-- The end of a host access to memory: its value, or the fatal condition of a bad address, from whatever status
(R192, R193; 60_exceptions.md R226: the command "ends and returns `Faulted(cause, finfo)`"). -/
def hostFault (e : Exc) (s : State) : State × Response :=
  (takeFault e s, .result (takeFault e s).result)

/-- CONSTRUCT: allowed at any time; replaces the whole state, or is refused and changes nothing (R191). -/
def hostConstruct (mm : Config.MaxMem) (src : Source) (cap : Option Int) (s : State) : State × Response :=
  match construct mm src cap with
  | some t => (t, .ack)
  | none => (s, .refused)

/-- GET_MEM (R192, R206). -/
def hostGetMem (a : Cell) (s : State) : State × Response :=
  if s.status = .faulted then (s, .noValue)
  else
    match memRead s a with
    | .ok v => (s, .value v)
    | .error e => hostFault e s

/-- SET_MEM (R193, R206): changes neither `ip` nor `status`. -/
def hostSetMem (a v : Cell) (s : State) : State × Response :=
  if s.status = .faulted then (s, .ack)
  else
    match memWrite s a v with
    | .ok t => (t, .ack)
    | .error e => hostFault e s

/-- IN_PUSH (R194, R206): does not change `status`. -/
def hostInPush (v : Cell) (s : State) : State × Response :=
  if s.status = .faulted then (s, .ack) else (s.pushIn v, .ack)

/-- OUT_POP (R195, R206). -/
def hostOutPop (s : State) : State × Response :=
  if s.status = .faulted then (s, .noValue)
  else
    match s.outq with
    | [] => (s, .empty)
    | v :: q => (s.withOutq q, .value v)

/-- Read a queue without changing it (R196, R206). -/
def hostReadQueue (q : List Cell) (s : State) : State × Response :=
  if s.status = .faulted then (s, .noValue) else (s, .queue q)

/-- Replace the contents of the input queue (R196, R206). -/
def hostReplaceInq (q : List Cell) (s : State) : State × Response :=
  if s.status = .faulted then (s, .ack) else (s.withInq q, .ack)

/-- Replace the contents of the output queue (R196, R206). -/
def hostReplaceOutq (q : List Cell) (s : State) : State × Response :=
  if s.status = .faulted then (s, .ack) else (s.withOutq q, .ack)

/-- STEP (R199): one `Step()` and its result. -/
def hostStep (s : State) : Option (State × Response) :=
  match step s with
  | .next t => some (t, .result t.result)
  | .fault _ => none
  | .refused _ => none

/-- RUN (R200). -/
def hostRun (fuel : Nat) (s : State) : Option (State × Response) :=
  match runFor fuel s with
  | some (t, r) => some (t, .result r)
  | none => none

/-- One command on one instance. `none` is a RUN that has not returned within `fuel` steps: the host then has no
further move on the instance (R197, R201). `mm` is `MAXMEM`. -/
def perform (mm : Config.MaxMem) (fuel : Nat) (c : Command) (s : State) : Option (State × Response) :=
  match c with
  | .construct src cap => some (hostConstruct mm src cap s)
  | .getMem a => some (hostGetMem a s)
  | .setMem a v => some (hostSetMem a v s)
  | .inPush v => some (hostInPush v s)
  | .outPop => some (hostOutPop s)
  | .readInq => some (hostReadQueue s.inq s)
  | .readOutq => some (hostReadQueue s.outq s)
  | .replaceInq q => some (hostReplaceInq q s)
  | .replaceOutq q => some (hostReplaceOutq q s)
  | .step => hostStep s
  | .run => hostRun fuel s

end Sys2Proof.Machine
end

