-- ==== Sys2Proof/Machine/System.lean ====
section
/-!
DEFINITION. Several instances and one host (10_state.md R34; 46_host_interface.md R203; 60_exceptions.md R243): a system
is independent machines plus a host that interleaves commands, and the interleaving is the host's choice.
-/

namespace Sys2Proof.Machine

/-- The instances a host drives, by number. A slot that holds nothing has had no CONSTRUCT yet (10_state.md R36). -/
structure System where
  slots : List (Option State)
  deriving DecidableEq, Repr

/-- A command on a slot. Before the first CONSTRUCT no instance exists and no command other than CONSTRUCT may be
issued (decision D20, 93_implementation_defined.md U13): it is refused and nothing changes. -/
def slotPerform (mm : Config.MaxMem) (fuel : Nat) (c : Command) (x : Option State) :
    Option (Option State × Response) :=
  match x with
  | some s =>
    match perform mm fuel c s with
    | some (t, r) => some (some t, r)
    | none => none
  | none =>
    match c with
    | .construct src cap =>
      match construct mm src cap with
      | some t => some (some t, .ack)
      | none => some (none, .refused)
    | .getMem _ => some (none, .refused)
    | .setMem _ _ => some (none, .refused)
    | .inPush _ => some (none, .refused)
    | .outPop => some (none, .refused)
    | .readInq => some (none, .refused)
    | .readOutq => some (none, .refused)
    | .replaceInq _ => some (none, .refused)
    | .replaceOutq _ => some (none, .refused)
    | .step => some (none, .refused)
    | .run => some (none, .refused)

/-- One host command on the instance of slot `n`; `none` when the command does not return, or when there is no such
slot. -/
def System.perform (mm : Config.MaxMem) (fuel : Nat) (n : Nat) (c : Command) (y : System) :
    Option (System × Response) :=
  match y.slots[n]? with
  | none => none
  | some x =>
    match slotPerform mm fuel c x with
    | none => none
    | some (x', r) => some (⟨y.slots.set n x'⟩, r)

/-- Queue hand-off of one value (46_host_interface.md R203): OUT_POP from instance `src`, and if it gave a value,
IN_PUSH it to instance `dst`. -/
def System.handOff (mm : Config.MaxMem) (src dst : Nat) (y : System) : Option System :=
  match y.perform mm 0 src .outPop with
  | none => none
  | some (y', .value v) =>
    match y'.perform mm 0 dst (.inPush v) with
    | none => none
    | some (y'', _) => some y''
  | some (y', _) => some y'

end Sys2Proof.Machine
end

