-- ==== Sys2Proof/Safety.lean ====
section
/-!
DEFINITION. The terms claims use: active and final states, the invariant, what a step leaves alone, the grammar of
the program text.
-/

namespace Sys2Proof.Machine

/-- The instance is not in a terminal state: the next step fetches (10_state.md R25). -/
abbrev State.Active (s : State) : Prop := s.status = .running ∨ s.status = .blocked

/-- Normal termination: `Halted`. `Blocked` is a wait and `Faulted` is never a final state (10_state.md R25;
93_implementation_defined.md U10). -/
abbrev State.Final (s : State) : Prop := s.status = .halted

/-- A safe state: no fatal condition has occurred (60_exceptions.md R220, R221). -/
abbrev State.Safe (s : State) : Prop := s.status ≠ .faulted

/-- The invariant of an instance of an implementation whose greatest memory is `mm`:
memory is in canonical form and lies below `MEMSIZE` (10_state.md R27); `MEMSIZE` is at most `MAXMEM` (00_scope.md R8);
`cause` is 0 exactly while no fatal condition has occurred, and then `finfo` is 0 (10_state.md R26). -/
structure Inv (mm : Config.MaxMem) (s : State) : Prop where
  mem_wf : s.mem.wf
  mem_bound : ∀ p ∈ s.mem, p.1 < s.memSize
  size_bound : s.memSize ≤ mm.val
  cause_none : s.cause = .none ↔ s.status ≠ .faulted
  finfo_zero : s.cause = .none → s.finfo = 0

/-- `v` is the value of the cell at `a` (20_memory.md R50). -/
abbrev State.Holds (s : State) (a v : Cell) : Prop := memRead s a = .ok v

/-- From `s` to `t` memory is unchanged but for the cell at `d`; MEMSIZE too. Every address is covered, those out of
range as well, which read as the same fault. -/
abbrev MemSameBut (d : Cell) (s t : State) : Prop :=
  t.memSize = s.memSize ∧ ∀ x, x ≠ d → memRead t x = memRead s x

/-- Every register and queue an instruction that only writes memory, `ip` and `status` leaves alone. -/
abbrev RestSame (s t : State) : Prop :=
  t.cause = s.cause ∧ t.finfo = s.finfo ∧ t.inq = s.inq ∧ t.outq = s.outq

/-- The cells from `a` on are `cs`. -/
def State.HoldsCells (s : State) (a : Cell) (cs : List Cell) : Prop :=
  match cs with
  | [] => True
  | c :: t => s.Holds a c ∧ s.HoldsCells (a + 1) t

/-- `CELL_MIN <= r <= CELL_MAX` (00_scope.md R8, R10). -/
abbrev InCell (r : Int) : Prop := Config.cellMin ≤ r ∧ r ≤ Config.cellMax

/-- `s` after a fatal condition with this code and record: the three registers `raise` writes and nothing else
(60_exceptions.md R226). -/
def State.faultedWith (s : State) (c : Cause) (f : Cell) : State :=
  { s with status := .faulted, cause := c, finfo := f }

/-- The value of read parameter `k` of the instruction word `w`, whose raw operand is `raw`: mode digit 0 reads the
cell at `raw`, mode digit 1 is `raw` itself (40_step_cycle.md R116, R117). -/
def paramValue (s : State) (w : Cell) (k : Nat) (raw : Cell) : Except Exc Cell :=
  if digit (k + 2) w.toNat = 0 then memRead s raw else .ok raw

/-- `w` is an instruction word with opcode `op`: non-negative, and its two low decimal digits are the opcode's number
(30_encoding.md R80). -/
abbrev IsOpcode (w : Cell) (op : Opcode) : Prop := 0 ≤ w.toInt ∧ w.toNat % 100 = op.num

/-- Every mode digit of a read parameter of `op` is 0 or 1 in the word `w` (30_encoding.md R92, R95). -/
abbrev ModesLegal (w : Cell) (op : Opcode) : Prop :=
  ∀ k, 1 ≤ k → k ≤ op.nparams → k ≠ op.writeParam → digit (k + 2) w.toNat ≤ 1

/-- The opcode and the modes of a descriptor, without the ignored digits. -/
def Desc.meaning (d : Desc) : Opcode × Mode × Mode := (d.op, d.m1, d.m2)

/-- What a word decodes to, without the ignored digits: the decode fault, or the opcode and the modes. -/
def wordMeaning (w : Cell) : Except WordError (Opcode × Mode × Mode) :=
  match decodeWord w with
  | .ok d => .ok (Desc.meaning d)
  | .error e => .error e

/-- The word at `ip` is an instruction word of opcode `op`. -/
def State.AtOpcode (s : State) (op : Opcode) : Prop := ∃ w, s.Holds s.ip w ∧ IsOpcode w op

/-- The STEP command from `s` leaves `t` and returns `r` (46_host_interface.md R199). -/
def Returns (s t : State) (r : StepResult) : Prop := hostStep s = some (t, .result r)

/-- The STEP command from `s` ends in a fatal condition: the three registers of `raise` are written, nothing else, and
they are returned (60_exceptions.md R226). -/
abbrev FaultsWith (s : State) (c : Cause) (f : Cell) : Prop := Returns s (s.faultedWith c f) (.faulted c f)

/-- The fatal conditions every instruction of opcode `op` can meet before its operands are resolved, in their order: the
fetch outside memory (40_step_cycle.md R111), an illegal mode digit (R113), an operand cell outside memory (R114). -/
def CommonStages (op : Opcode) : Prop :=
  (∀ s : State, s.Active → ¬ s.inBounds s.ip → FaultsWith s .outOfBounds s.ip) ∧
  ∀ (s : State) (w : Cell), s.Active → s.Holds s.ip w → IsOpcode w op →
    (¬ ModesLegal w op → FaultsWith s .illegalMode w) ∧
    (∀ cs : List Cell, ModesLegal w op → s.HoldsCells (s.ip + 1) cs → cs.length < op.nparams →
      ¬ s.inBounds (s.ip + 1 + BitVec.ofNat 64 cs.length) →
      FaultsWith s .outOfBounds (s.ip + 1 + BitVec.ofNat 64 cs.length))

/-! ## The grammar of the program text, as 30_encoding.md R98 writes it -/

/-- `int := "-"? digit+`, with its value. -/
def IntText (t : List Char) (v : Int) : Prop :=
  ∃ ds : List Char, ds ≠ [] ∧ (∀ c ∈ ds, isDig c = true) ∧
    ((t = ds ∧ v = digitsVal ds) ∨ (t = '-' :: ds ∧ v = -(digitsVal ds : Int)))

/-- `ws int ws`. -/
def FieldText (t : List Char) (v : Int) : Prop :=
  ∃ l i r : List Char, t = l ++ i ++ r ∧ (∀ c ∈ l, isWs c = true) ∧ (∀ c ∈ r, isWs c = true) ∧ IntText i v

/-- `program := ws int ( ws "," ws int )* ws`, with the integers it stands for. -/
inductive ProgramText : List Char → List Int → Prop where
  | one (t : List Char) (v : Int) : FieldText t v → ProgramText t [v]
  | more (t u : List Char) (v : Int) (vs : List Int) :
      FieldText t v → ProgramText u vs → ProgramText (t ++ ',' :: u) (v :: vs)

end Sys2Proof.Machine
end

