-- ==== Sys2Proof/Certificates/Slice0/Obligations.lean ====
section
/-!
DEFINITION. The statements for the provers. Each docstring names the rule or the section of spec/ it formalises.

`s.Holds a v` says MemRead of `a` gives `v`; `MemSameBut d s t` that every address but `d` reads after as before and
MEMSIZE is the same; `RestSame s t` that `cause`, `finfo` and both queues are (Safety.lean).
-/

open Sys2Proof Sys2Proof.Machine

/-! ## Encoding -/

/-- 30_encoding.md sections 1 to 5: decoding the cells of any well-formed instruction, whatever follows them, gives that
instruction back, with every operand, and leaves what follows. That an instruction carries its ignored digits, and that
`encode` emits them, is the model's choice (notes/assumptions/8.md); with `ign = 0` it is the encoding of R95 and R99. -/
def Obligations.DecodeOfEncodeIsTheInstruction : Prop :=
  ∀ (i : Instr) (rest : List Cell), i.WellFormed = true → decode (encode i ++ rest) = .ok (i, rest)

/-- The model's choice (notes/assumptions/8.md), over the decoder of 30_encoding.md: every list of cells that decodes is
the model's encoding of a well-formed instruction and the cells after it, so no digit is lost. It holds because an `Instr`
carries the digits the decoder ignores and `encode` emits them again; the spec's own encoding, the canonical one, has 0
there (R95, R99), so by the spec the encoding of the HLT that 199 decodes to is 99. -/
def Obligations.EncodeOfDecodeIsTheCells : Prop :=
  ∀ (cells : List Cell) (i : Instr) (rest : List Cell), decode cells = .ok (i, rest) →
    i.WellFormed = true ∧ encode i ++ rest = cells

/-- 30_encoding.md R80 to R95, 95_test_vectors.md V-DEC: a few words, written out from the encoding, and what they stand
for. -/
def Obligations.SampleWordsDecode : Prop :=
  decode [1002, 4, 3, 4] = .ok (.mul (.pos 4) (.imm 3) 4 0, []) ∧
  decode [1, 5, 6, 7] = .ok (.add (.pos 5) (.pos 6) 7 0, []) ∧
  decode [91101, 2, 3, 5] = .ok (.add (.imm 2) (.imm 3) 5 9, []) ∧
  decode [203, 3] = .ok (.input 3 2, []) ∧
  decode [11104, 7] = .ok (.output (.imm 7) 11, []) ∧
  decode [1005, 15, 0] = .ok (.jnz (.pos 15) (.imm 0) 0, []) ∧
  decode [6, 12, 15] = .ok (.jz (.pos 12) (.pos 15) 0, []) ∧
  decode [107, 16, 5, 17] = .ok (.lt (.imm 16) (.pos 5) 17 0, []) ∧
  decode [1108, 7, 8, 5] = .ok (.eq (.imm 7) (.imm 8) 5 0, []) ∧
  decode [1099] = .ok (.hlt 10, []) ∧
  decode [9, 1] = .error (.word .unknownOpcode) ∧
  decode [-1] = .error (.word .unknownOpcode) ∧
  decode [201, 0, 0, 0] = .error (.word .illegalMode)

/-- 30_encoding.md section 5 (the complete set of words that decode to each mnemonic): a word decodes to the opcode `op`
exactly when it is non-negative, its two low decimal digits are `op`'s number and every mode digit of a read parameter
is 0 or 1. -/
def Obligations.WordDecodesExactlyWhenLegal : Prop :=
  ∀ (w : Cell) (op : Opcode),
    (∃ d, decodeWord w = .ok d ∧ d.op = op) ↔ (IsOpcode w op ∧ ModesLegal w op)

/-- 30_encoding.md R94: digits above the fifth are ignored, `w` decodes exactly as `w mod 100000` does. -/
def Obligations.DigitsAboveTheFifthAreIgnored : Prop :=
  ∀ w : Cell, 0 ≤ w.toInt → wordMeaning w = wordMeaning (BitVec.ofNat 64 (w.toNat % 100000))

/-- 30_encoding.md section 4 and section 5 (the write override, digits beyond the parameter count): two non-negative
words with the same two low digits and the same mode digits of the read parameters of that opcode decode to the same
opcode and modes, whatever their other digits. -/
def Obligations.OnlyReadModeDigitsMatter : Prop :=
  ∀ (w v : Cell) (op : Opcode), IsOpcode w op → IsOpcode v op →
    (∀ k, 1 ≤ k → k ≤ op.nparams → k ≠ op.writeParam → digit (k + 2) w.toNat = digit (k + 2) v.toNat) →
    wordMeaning w = wordMeaning v

/-! ## The step cycle -/

/-- 40_step_cycle.md section 1: when the cells at `ip` decode to an instruction, a step in Running or Blocked is `exec` of
it at that state, nothing added. -/
def Obligations.StepRunsTheDecodedInstruction : Prop :=
  ∀ (s : State) (i : Instr) (cells : List Cell), s.Active → decode cells = .ok (i, []) → s.HoldsCells s.ip cells →
    step s = exec i s

/-- The model's own (notes/assumptions/4.md, 15.md): whatever the state, as long as its memory is in canonical form, placing
a table word that decodes makes the next step run its instruction. -/
def Obligations.PlacedWordRunsNext : Prop :=
  ∀ (s : State) (nbits w : Nat) (i : Instr), s.mem.wf → decodeTableWord nbits w = some i →
    step (s.withFetchWord nbits w) = exec i (s.withFetchWord nbits w)

/-- 40_step_cycle.md R111: a fetch outside memory raises OutOfBounds(ip). -/
def Obligations.FetchOutsideMemoryFaults : Prop :=
  ∀ s : State, s.Active → ¬ s.inBounds s.ip → step s = .next (s.faultedWith .outOfBounds s.ip)

/-- 30_encoding.md R90, R91: a negative word, or one whose two low digits are no opcode's number, raises UnknownOpcode
with the word. -/
def Obligations.UnknownWordsFault : Prop :=
  ∀ (s : State) (w : Cell), s.Active → s.Holds s.ip w →
    (w.toInt < 0 ∨ ∀ op : Opcode, w.toNat % 100 ≠ op.num) →
    step s = .next (s.faultedWith .unknownOpcode w)

/-- 30_encoding.md R92: a mode digit 2 to 9 on a read parameter raises IllegalMode with the word. Where the read parameters
have legal digits the write parameter's digit is legal and overridden, whatever it is: the step raises no IllegalMode, and
with the operand cells in memory it runs the instruction the word and they decode to, of that opcode and with those raw
operands, the last of which is the destination address when the instruction has one. -/
def Obligations.IllegalModeExactlyOnReadDigits : Prop :=
  ∀ (s : State) (w : Cell) (op : Opcode), s.Active → s.Holds s.ip w → IsOpcode w op →
    (¬ ModesLegal w op → step s = .next (s.faultedWith .illegalMode w)) ∧
    (ModesLegal w op → s.cause ≠ .illegalMode → ∃ t, step s = .next t ∧ t.cause ≠ .illegalMode) ∧
    (ModesLegal w op → ∀ raw : List Cell, s.HoldsCells (s.ip + 1) raw → raw.length = op.nparams →
      ∃ i : Instr, decode (w :: raw) = .ok (i, []) ∧ i.opcode = op ∧ i.operands = raw ∧ step s = exec i s)

/-- 40_step_cycle.md section 2 (raw operand fetch): the operand cells are read in ascending order after the word has
decoded, and the first one out of range is reported. -/
def Obligations.MissingOperandCellFaults : Prop :=
  ∀ (s : State) (w : Cell) (op : Opcode) (cs : List Cell), s.Active → s.Holds s.ip w → IsOpcode w op →
    ModesLegal w op → s.HoldsCells (s.ip + 1) cs → cs.length < op.nparams →
    ¬ s.inBounds (s.ip + 1 + BitVec.ofNat 64 cs.length) →
    step s = .next (s.faultedWith .outOfBounds (s.ip + 1 + BitVec.ofNat 64 cs.length))

/-- 40_step_cycle.md R122: in Halted and in Faulted a step does nothing and returns that status. -/
def Obligations.TerminalStepsDoNothing : Prop :=
  ∀ s : State,
    (s.status = .halted → hostStep s = some (s, .result .halted)) ∧
    (s.status = .faulted → hostStep s = some (s, .result (.faulted s.cause s.finfo)))

/-- 93_implementation_defined.md Part 1 (no behaviour is undefined): every step of every state, and every
instruction at every state, answers a next state: the model stops nowhere. -/
def Obligations.EveryStepAnswers : Prop :=
  (∀ s : State, ∃ t, step s = .next t) ∧ (∀ (i : Instr) (s : State), ∃ t, exec i s = .next t)

/-- 40_step_cycle.md R123: a step that raises writes only `status`, `cause` and `finfo`; a step that blocks writes only
`status`. -/
def Obligations.StepIsAllOrNothing : Prop :=
  ∀ s t : State, s.Active → step s = .next t →
    (t.status = .faulted → t = s.faultedWith t.cause t.finfo) ∧
    (t.status = .blocked → t = { s with status := .blocked })

/-- 40_step_cycle.md R121: the status after an instruction that raises nothing is Halted for HLT, Blocked for IN with an
empty queue, Running for all others, and the result agrees with the status, Continue with Running; a raise leaves
Faulted. -/
def Obligations.StatusAndResultAfterAnInstruction : Prop :=
  ∀ (i : Instr) (s : State), ∃ t, exec i s = .next t ∧
    (t.status = .faulted ∨ t.status =
      match i with
      | .hlt _ => .halted
      | .input _ _ => if s.inq = [] then .blocked else .running
      | _ => .running) ∧
    (t.status = .running ↔ t.result = .cont) ∧ (t.status = .blocked ↔ t.result = .blocked) ∧
    (t.status = .halted ↔ t.result = .halted) ∧
    (t.status = .faulted ↔ t.result = .faulted t.cause t.finfo)

/-! ## The instructions, step by step

Each says, of a step in Running or Blocked whose word at `ip` is the instruction's, all that the instruction's rule says:
the encoding (the word's opcode and mode digits, every other digit free), the result written and the result returned, the
fatal conditions in the order they are tested (`CommonStages` are those of fetch, decode and operand fetch), and what is
left alone. -/

/-- 41_arithmetic.md R140: ADD stores the exact sum or faults. -/
def Obligations.AddStep : Prop :=
  CommonStages .add ∧
  ∀ (s : State) (w r1 r2 d : Cell), s.Active → s.mem.wf → IsOpcode w .add →
    digit 3 w.toNat ≤ 1 → digit 4 w.toNat ≤ 1 → s.HoldsCells s.ip [w, r1, r2, d] →
    (∀ e, paramValue s w 1 r1 = .error e → FaultsWith s .outOfBounds r1) ∧
    (∀ a e, paramValue s w 1 r1 = .ok a → paramValue s w 2 r2 = .error e →
      FaultsWith s .outOfBounds r2) ∧
    (∀ a b, paramValue s w 1 r1 = .ok a → paramValue s w 2 r2 = .ok b →
      (¬ InCell (a.toInt + b.toInt) → FaultsWith s .arithmeticOverflow w) ∧
      (InCell (a.toInt + b.toInt) → ¬ s.inBounds d → FaultsWith s .outOfBounds d) ∧
      (InCell (a.toInt + b.toInt) → s.inBounds d →
        ∃ t r, Returns s t .cont ∧ t.Holds d r ∧ r.toInt = a.toInt + b.toInt ∧ MemSameBut d s t ∧ RestSame s t ∧
          t.ip = s.ip + 4 ∧ t.status = .running))

/-- 41_arithmetic.md R141: MUL stores the exact product or faults. -/
def Obligations.MulStep : Prop :=
  CommonStages .mul ∧
  ∀ (s : State) (w r1 r2 d : Cell), s.Active → s.mem.wf → IsOpcode w .mul →
    digit 3 w.toNat ≤ 1 → digit 4 w.toNat ≤ 1 → s.HoldsCells s.ip [w, r1, r2, d] →
    (∀ e, paramValue s w 1 r1 = .error e → FaultsWith s .outOfBounds r1) ∧
    (∀ a e, paramValue s w 1 r1 = .ok a → paramValue s w 2 r2 = .error e →
      FaultsWith s .outOfBounds r2) ∧
    (∀ a b, paramValue s w 1 r1 = .ok a → paramValue s w 2 r2 = .ok b →
      (¬ InCell (a.toInt * b.toInt) → FaultsWith s .arithmeticOverflow w) ∧
      (InCell (a.toInt * b.toInt) → ¬ s.inBounds d → FaultsWith s .outOfBounds d) ∧
      (InCell (a.toInt * b.toInt) → s.inBounds d →
        ∃ t r, Returns s t .cont ∧ t.Holds d r ∧ r.toInt = a.toInt * b.toInt ∧ MemSameBut d s t ∧ RestSame s t ∧
          t.ip = s.ip + 4 ∧ t.status = .running))

/-- 42_io.md R150: the empty queue blocks before the destination is checked, a bad destination consumes nothing. -/
def Obligations.InStep : Prop :=
  CommonStages .input ∧
  ∀ (s : State) (w d : Cell), s.Active → s.mem.wf → IsOpcode w .input → s.HoldsCells s.ip [w, d] →
    (s.inq = [] → Returns s { s with status := .blocked } .blocked) ∧
    (s.inq ≠ [] → ¬ s.inBounds d → FaultsWith s .outOfBounds d) ∧
    (∀ v rest, s.inq = v :: rest → s.inBounds d →
      ∃ t, Returns s t .cont ∧ t.Holds d v ∧ MemSameBut d s t ∧ t.inq = rest ∧ t.outq = s.outq ∧
        t.cause = s.cause ∧ t.finfo = s.finfo ∧ t.ip = s.ip + 2 ∧ t.status = .running)

/-- 42_io.md R152: OUT appends its parameter's value to `outq`; it never blocks. -/
def Obligations.OutStep : Prop :=
  CommonStages .output ∧
  ∀ (s : State) (w r1 : Cell), s.Active → IsOpcode w .output → digit 3 w.toNat ≤ 1 → s.HoldsCells s.ip [w, r1] →
    (∀ e, paramValue s w 1 r1 = .error e → FaultsWith s .outOfBounds r1) ∧
    (∀ a, paramValue s w 1 r1 = .ok a →
      Returns s { s with outq := s.outq ++ [a], ip := s.ip + 2, status := .running } .cont)

/-- 43_jump.md R160: JNZ jumps on any value but 0, to any cell value, unchecked, having resolved both parameters. -/
def Obligations.JnzStep : Prop :=
  CommonStages .jnz ∧
  ∀ (s : State) (w r1 r2 : Cell), s.Active → IsOpcode w .jnz → digit 3 w.toNat ≤ 1 → digit 4 w.toNat ≤ 1 →
    s.HoldsCells s.ip [w, r1, r2] →
    (∀ e, paramValue s w 1 r1 = .error e → FaultsWith s .outOfBounds r1) ∧
    (∀ a e, paramValue s w 1 r1 = .ok a → paramValue s w 2 r2 = .error e →
      FaultsWith s .outOfBounds r2) ∧
    (∀ a b, paramValue s w 1 r1 = .ok a → paramValue s w 2 r2 = .ok b →
      (a.toInt ≠ 0 → Returns s { s with ip := b, status := .running } .cont) ∧
      (a.toInt = 0 → Returns s { s with ip := s.ip + 3, status := .running } .cont))

/-- 43_jump.md R161: as JNZ, but only the value 0 jumps. -/
def Obligations.JzStep : Prop :=
  CommonStages .jz ∧
  ∀ (s : State) (w r1 r2 : Cell), s.Active → IsOpcode w .jz → digit 3 w.toNat ≤ 1 → digit 4 w.toNat ≤ 1 →
    s.HoldsCells s.ip [w, r1, r2] →
    (∀ e, paramValue s w 1 r1 = .error e → FaultsWith s .outOfBounds r1) ∧
    (∀ a e, paramValue s w 1 r1 = .ok a → paramValue s w 2 r2 = .error e →
      FaultsWith s .outOfBounds r2) ∧
    (∀ a b, paramValue s w 1 r1 = .ok a → paramValue s w 2 r2 = .ok b →
      (a.toInt = 0 → Returns s { s with ip := b, status := .running } .cont) ∧
      (a.toInt ≠ 0 → Returns s { s with ip := s.ip + 3, status := .running } .cont))

/-- 44_compare.md R170: the result is 1 or 0 by the signed order, and no overflow can occur. -/
def Obligations.LtStep : Prop :=
  CommonStages .lt ∧
  ∀ (s : State) (w r1 r2 d : Cell), s.Active → s.mem.wf → IsOpcode w .lt →
    digit 3 w.toNat ≤ 1 → digit 4 w.toNat ≤ 1 → s.HoldsCells s.ip [w, r1, r2, d] →
    (∀ e, paramValue s w 1 r1 = .error e → FaultsWith s .outOfBounds r1) ∧
    (∀ a e, paramValue s w 1 r1 = .ok a → paramValue s w 2 r2 = .error e →
      FaultsWith s .outOfBounds r2) ∧
    (∀ a b, paramValue s w 1 r1 = .ok a → paramValue s w 2 r2 = .ok b →
      (¬ s.inBounds d → FaultsWith s .outOfBounds d) ∧
      (s.inBounds d →
        ∃ t, Returns s t .cont ∧ (a.toInt < b.toInt → t.Holds d 1) ∧ (¬ a.toInt < b.toInt → t.Holds d 0) ∧
          MemSameBut d s t ∧ RestSame s t ∧ t.ip = s.ip + 4 ∧ t.status = .running))

/-- 44_compare.md R171: the result is 1 when the two integers are equal, else 0. -/
def Obligations.EqStep : Prop :=
  CommonStages .eq ∧
  ∀ (s : State) (w r1 r2 d : Cell), s.Active → s.mem.wf → IsOpcode w .eq →
    digit 3 w.toNat ≤ 1 → digit 4 w.toNat ≤ 1 → s.HoldsCells s.ip [w, r1, r2, d] →
    (∀ e, paramValue s w 1 r1 = .error e → FaultsWith s .outOfBounds r1) ∧
    (∀ a e, paramValue s w 1 r1 = .ok a → paramValue s w 2 r2 = .error e →
      FaultsWith s .outOfBounds r2) ∧
    (∀ a b, paramValue s w 1 r1 = .ok a → paramValue s w 2 r2 = .ok b →
      (¬ s.inBounds d → FaultsWith s .outOfBounds d) ∧
      (s.inBounds d →
        ∃ t, Returns s t .cont ∧ (a.toInt = b.toInt → t.Holds d 1) ∧ (a.toInt ≠ b.toInt → t.Holds d 0) ∧
          MemSameBut d s t ∧ RestSame s t ∧ t.ip = s.ip + 4 ∧ t.status = .running))

/-- 45_halt.md R180: any non-negative word ending in the digits 99 halts, reading no other cell and writing nothing but
`status`. -/
def Obligations.HltStep : Prop :=
  CommonStages .hlt ∧
  ∀ (s : State) (w : Cell), s.Active → s.Holds s.ip w → IsOpcode w .hlt →
    Returns s { s with status := .halted } .halted

/-! ## The instructions as `exec` gives them: where each completes, and its frame -/

/-- 41_arithmetic.md: ADD and MUL complete at every state whose operands resolve, when the exact result fits a cell and
the destination `d` is in memory; the cell at `d`, `ip` and `status` change and nothing else. -/
def Obligations.ArithmeticCompletes : Prop :=
  ∀ (s1 s2 : Src) (d : Cell) (ign : Nat) (s : State) (a b : Cell), s.mem.wf →
    resolve s s1 = .ok a → resolve s s2 = .ok b → s.inBounds d →
    (InCell (a.toInt + b.toInt) →
      ∃ t r, exec (.add s1 s2 d ign) s = .next t ∧ t.Holds d r ∧ r.toInt = a.toInt + b.toInt ∧
        MemSameBut d s t ∧ RestSame s t ∧ t.ip = s.ip + 4 ∧ t.status = .running) ∧
    (InCell (a.toInt * b.toInt) →
      ∃ t r, exec (.mul s1 s2 d ign) s = .next t ∧ t.Holds d r ∧ r.toInt = a.toInt * b.toInt ∧
        MemSameBut d s t ∧ RestSame s t ∧ t.ip = s.ip + 4 ∧ t.status = .running)

/-- 44_compare.md: LT and EQ complete at every state whose operands resolve and whose destination is in memory. -/
def Obligations.CompareCompletes : Prop :=
  ∀ (s1 s2 : Src) (d : Cell) (ign : Nat) (s : State) (a b : Cell), s.mem.wf →
    resolve s s1 = .ok a → resolve s s2 = .ok b → s.inBounds d →
    (∃ t, exec (.lt s1 s2 d ign) s = .next t ∧ t.Holds d (if a.toInt < b.toInt then 1 else 0) ∧
      MemSameBut d s t ∧ RestSame s t ∧ t.ip = s.ip + 4 ∧ t.status = .running) ∧
    (∃ t, exec (.eq s1 s2 d ign) s = .next t ∧ t.Holds d (if a.toInt = b.toInt then 1 else 0) ∧
      MemSameBut d s t ∧ RestSame s t ∧ t.ip = s.ip + 4 ∧ t.status = .running)

/-- 42_io.md: IN completes at every state with an input value and a destination in memory: it consumes exactly the front
value. -/
def Obligations.InputCompletes : Prop :=
  ∀ (d : Cell) (ign : Nat) (s : State) (v : Cell) (rest : List Cell), s.mem.wf → s.inq = v :: rest → s.inBounds d →
    ∃ t, exec (.input d ign) s = .next t ∧ t.Holds d v ∧ MemSameBut d s t ∧ t.inq = rest ∧ t.outq = s.outq ∧
      t.cause = s.cause ∧ t.finfo = s.finfo ∧ t.ip = s.ip + 2 ∧ t.status = .running

/-- 42_io.md and 43_jump.md: OUT, JNZ and JZ complete at every state whose operands resolve; the next state is the old
one but for the fields named, so all of memory is unchanged. -/
def Obligations.OutputAndJumpsComplete : Prop :=
  ∀ (s1 s2 : Src) (ign : Nat) (s : State) (a b : Cell), resolve s s1 = .ok a → resolve s s2 = .ok b →
    exec (.output s1 ign) s = .next { s with outq := s.outq ++ [a], ip := s.ip + 2, status := .running } ∧
    exec (.jnz s1 s2 ign) s =
      .next { s with ip := if a.toInt = 0 then s.ip + 3 else b, status := .running } ∧
    exec (.jz s1 s2 ign) s =
      .next { s with ip := if a.toInt = 0 then b else s.ip + 3, status := .running }

/-- 45_halt.md: HLT completes at every state and writes nothing but `status`. -/
def Obligations.HaltCompletes : Prop :=
  ∀ (ign : Nat) (s : State), exec (.hlt ign) s = .next { s with status := .halted }

/-- 40_step_cycle.md R116, R117: the value of a read parameter: the cell at the raw operand, or OutOfBounds of it, in
position mode; the raw operand, with no access and no fault, in immediate mode. -/
def Obligations.ReadParameterValue : Prop :=
  ∀ (s : State) (n : Cell),
    (s.inBounds n → resolve s (.pos n) = .ok (s.mem.get n.toInt.toNat)) ∧
    (¬ s.inBounds n → resolve s (.pos n) = .error (.outOfBounds n)) ∧
    resolve s (.imm n) = .ok n

/-- 40_step_cycle.md section 3 (every read parameter is resolved, in ascending order, before execution): a position-mode
read parameter outside memory faults in all seven instructions that have one, the first before the second, and a jump
faults on its target taken or not. -/
def Obligations.BadOperandAddressFaults : Prop :=
  ∀ (n : Cell) (p : Src) (d : Cell) (ign : Nat) (s : State), ¬ s.inBounds n →
    (exec (.output (.pos n) ign) s = .next (s.faultedWith .outOfBounds n)) ∧
    (∀ i ∈ [Instr.add (.pos n) p d ign, .mul (.pos n) p d ign, .lt (.pos n) p d ign, .eq (.pos n) p d ign,
        .jnz (.pos n) p ign, .jz (.pos n) p ign],
      exec i s = .next (s.faultedWith .outOfBounds n)) ∧
    (∀ a, resolve s p = .ok a →
      ∀ i ∈ [Instr.add p (.pos n) d ign, .mul p (.pos n) d ign, .lt p (.pos n) d ign, .eq p (.pos n) d ign,
        .jnz p (.pos n) ign, .jz p (.pos n) ign],
      exec i s = .next (s.faultedWith .outOfBounds n))

/-! ## Whole-machine rules -/

/-- 10_state.md R22: how each instruction moves `ip`. A step that ends in a fatal condition leaves it unchanged. -/
def Obligations.IpAfterEachInstruction : Prop :=
  (∀ s t : State, step s = .next t → t.status = .faulted → t.ip = s.ip) ∧
  ∀ (i : Instr) (s : State), ∃ t, exec i s = .next t ∧
    (t.status = .faulted → t.ip = s.ip) ∧
    (t.status ≠ .faulted →
      match i with
      | .add _ _ _ _ | .mul _ _ _ _ | .lt _ _ _ _ | .eq _ _ _ _ => t.ip = s.ip + 4
      | .input _ _ => t.ip = if s.inq = [] then s.ip else s.ip + 2
      | .output _ _ => t.ip = s.ip + 2
      | .jnz s1 s2 _ => ∃ a b, resolve s s1 = .ok a ∧ resolve s s2 = .ok b ∧ t.ip = if a = 0 then s.ip + 3 else b
      | .jz s1 s2 _ => ∃ a b, resolve s s1 = .ok a ∧ resolve s s2 = .ok b ∧ t.ip = if a = 0 then b else s.ip + 3
      | .hlt _ => t.ip = s.ip)

/-- 10_state.md section 2 (`ip` never wraps around): in a state that meets the invariant, whose instruction cells are all
in memory, the sequential successor of `ip` is the exact sum and at most 2^63 - 4. -/
def Obligations.IpNeverWraps : Prop :=
  ∀ (mm : Config.MaxMem) (s : State) (w : Cell) (op : Opcode) (raw : List Cell), Inv mm s → s.Holds s.ip w →
    IsOpcode w op → s.HoldsCells (s.ip + 1) raw → raw.length = op.nparams →
    0 ≤ s.ip.toInt ∧ (s.ip + BitVec.ofNat 64 (1 + op.nparams)).toInt = s.ip.toInt + 1 + op.nparams ∧
      (s.ip + BitVec.ofNat 64 (1 + op.nparams)).toInt ≤ 9223372036854775804

/-- 20_memory.md section 4 (the accesses each instruction makes) and section 7: a step writes at most the cell its
instruction's write parameter names: any address that reads differently after it is the raw operand of the write
parameter of the instruction at `ip`, and MEMSIZE is unchanged. -/
def Obligations.OnlyTheDestinationCellChanges : Prop :=
  ∀ s t : State, step s = .next t →
    t.memSize = s.memSize ∧
    ∀ x, memRead t x ≠ memRead s x →
      ∃ op, s.AtOpcode op ∧ op.writeParam ≠ 0 ∧ s.Holds (s.ip + BitVec.ofNat 64 op.writeParam) x

/-- 10_state.md section 6: a step leaves the input queue as it is, or is an IN and removes its front element; it leaves
the output queue as it is, or is an OUT and appends one element. -/
def Obligations.QueuesMoveOnlyByInAndOut : Prop :=
  ∀ s t : State, step s = .next t →
    (t.inq = s.inq ∨ (s.AtOpcode .input ∧ ∃ v, s.inq = v :: t.inq)) ∧
    (t.outq = s.outq ∨ (s.AtOpcode .output ∧ ∃ v, t.outq = s.outq ++ [v]))

/-- 42_io.md and 45_halt.md: a step of a running or blocked instance ends Blocked only at an IN with an empty input
queue, and ends Halted only at a HLT. -/
def Obligations.OnlyInBlocksAndOnlyHltHalts : Prop :=
  ∀ s t : State, s.Active → step s = .next t →
    (t.status = .blocked → s.AtOpcode .input ∧ s.inq = []) ∧ (t.status = .halted → s.AtOpcode .hlt)

/-- 42_io.md section (Blocked suspension): a step taken in Blocked is the same function as one taken in Running. -/
def Obligations.BlockedStepsLikeRunning : Prop :=
  ∀ s : State, step { s with status := .blocked } = step { s with status := .running }

/-- 95_test_vectors.md S7 and 42_io.md (Blocked suspension): once an IN has blocked, any number of further steps with the
queue still empty leaves the whole state as it is. -/
def Obligations.BlockingIsIdempotent : Prop :=
  ∀ (s t : State) (n : Nat), s.Active → step s = .next t → t.status = .blocked →
    Host.Core.run Sys2Proof.core n t = .next t

/-- 46_host_interface.md section 7 and 42_io.md (Blocked suspension): after an IN has blocked, pushing one value and
stepping once completes that same IN: the value is at its destination, consumed, and nothing else has changed since
before the IN was first tried. -/
def Obligations.PushedValueCompletesTheBlockedIn : Prop :=
  ∀ (s t : State) (w d v : Cell), s.Active → s.mem.wf → s.HoldsCells s.ip [w, d] → s.inBounds d →
    step s = .next t → t.status = .blocked →
    ∃ u, step (t.pushIn v) = .next u ∧ u.Holds d v ∧ MemSameBut d s u ∧ u.inq = [] ∧ u.outq = s.outq ∧
      u.cause = s.cause ∧ u.finfo = s.finfo ∧ u.ip = s.ip + 2 ∧ u.status = .running

/-- 45_halt.md section (halt is terminal): from a halted state any number of steps changes nothing. -/
def Obligations.HaltIsTerminal : Prop :=
  ∀ (s : State) (n : Nat), s.status = .halted → Host.Core.run Sys2Proof.core n s = .next s

/-! ## The invariant -/

/-- 10_state.md R36 and 70_reset_and_hazards.md: the reset state meets the invariant, for every MAXMEM, and holds the
values the table gives; that its program is empty is the model's choice (notes/assumptions/3.md). -/
def Obligations.ResetMeetsTheInvariant : Prop :=
  (∀ mm : Config.MaxMem, Inv mm State.reset) ∧ State.reset.ip = 0 ∧ State.reset.status = .running ∧
    State.reset.cause = .none ∧ State.reset.finfo = 0 ∧ State.reset.inq = [] ∧ State.reset.outq = []

/-- 10_state.md sections 4 and 5: every step keeps the invariant: memory in canonical form below MEMSIZE, MEMSIZE at most
MAXMEM, and the fault record empty exactly while no fatal condition has occurred. -/
def Obligations.StepKeepsTheInvariant : Prop :=
  ∀ (mm : Config.MaxMem) (s t : State), Inv mm s → step s = .next t → Inv mm t

/-- 46_host_interface.md: every host command keeps the invariant, CONSTRUCT, a bad host address and RUN among them, for as
many steps as RUN is watched (notes/assumptions/10.md). -/
def Obligations.CommandsKeepTheInvariant : Prop :=
  ∀ (mm : Config.MaxMem) (fuel : Nat) (c : Command) (s t : State) (r : Response), Inv mm s →
    perform mm fuel c s = some (t, r) → Inv mm t

/-- 20_memory.md R50, R51: MemRead and MemWrite. In range, a write makes the cell read as the value and no other cell,
and nothing else, changes; out of range it raises OutOfBounds, and so does a read. -/
def Obligations.MemoryReadAndWrite : Prop :=
  ∀ (s : State) (a v : Cell), s.mem.wf →
    (s.inBounds a → memRead s a = .ok (s.mem.get a.toInt.toNat) ∧
      ∃ t, memWrite s a v = .ok t ∧ t.Holds a v ∧ MemSameBut a s t ∧ RestSame s t ∧ t.ip = s.ip ∧
        t.status = s.status) ∧
    (¬ s.inBounds a → memRead s a = .error (.outOfBounds a) ∧ memWrite s a v = .error (.outOfBounds a))

/-! ## The host interface -/

/-- 46_host_interface.md section 2 and 10_state.md R36: the state CONSTRUCT leaves, when it is not refused: the program's
values, then zeros, up to MEMSIZE, which is the capacity if given and else the program's length; everything else as
the table of R36. -/
def Obligations.ConstructedState : Prop :=
  ∀ (mm : Config.MaxMem) (src : Source) (cap : Option Int) (t : State), construct mm src cap = some t →
    ∃ vs : List Int, src.values = some vs ∧ (t.memSize : Int) = cap.getD vs.length ∧
      (∀ (a : Nat) (h : a < vs.length), ∃ c : Cell, t.Holds (BitVec.ofNat 64 a) c ∧ c.toInt = vs[a]) ∧
      (∀ a : Nat, vs.length ≤ a → a < t.memSize → t.Holds (BitVec.ofNat 64 a) 0) ∧
      t.ip = 0 ∧ t.status = .running ∧ t.cause = .none ∧ t.finfo = 0 ∧ t.inq = [] ∧ t.outq = []

/-- 46_host_interface.md section 2: CONSTRUCT is refused exactly when the text is ill-formed, a value is outside `Cell`,
the capacity is less than the program's length, or MEMSIZE would exceed MAXMEM; a refusal leaves an existing instance
unchanged. -/
def Obligations.ConstructIsRefusedExactlyWhen : Prop :=
  ∀ (mm : Config.MaxMem) (src : Source) (cap : Option Int) (s : State),
    (construct mm src cap = none ↔
      (src.values = none ∨ ∃ vs : List Int, src.values = some vs ∧
        ((∃ v ∈ vs, ¬ InCell v) ∨ cap.getD vs.length < vs.length ∨ (mm.val : Int) < cap.getD vs.length))) ∧
    (construct mm src cap = none → hostConstruct mm src cap s = (s, .refused))

/-- 30_encoding.md section 6 (the text form, made exact): the loader accepts exactly the texts of the grammar and reads
the integers they stand for. -/
def Obligations.ProgramTextIsTheGrammar : Prop :=
  ∀ (t : List Char) (vs : List Int), parseText t = some vs ↔ ProgramText t vs

/-- 46_host_interface.md R192: GET_MEM gives the cell and changes nothing; a bad address makes the instance Faulted with
cause 2 and the address, from any status but Faulted, and no value is returned. -/
def Obligations.GetMemCommand : Prop :=
  ∀ (a : Cell) (s : State), s.status ≠ .faulted →
    (s.inBounds a → ∃ v, s.Holds a v ∧ hostGetMem a s = (s, .value v)) ∧
    (¬ s.inBounds a →
      (hostGetMem a s).1 = s.faultedWith .outOfBounds a ∧ ∀ v, (hostGetMem a s).2 ≠ .value v)

/-- 46_host_interface.md R193: SET_MEM changes the one cell and nothing else, `ip` and `status` neither; a bad address
faults as GET_MEM's. -/
def Obligations.SetMemCommand : Prop :=
  ∀ (a v : Cell) (s : State), s.status ≠ .faulted → s.mem.wf →
    (s.inBounds a → ∃ t, (hostSetMem a v s).1 = t ∧ t.Holds a v ∧ MemSameBut a s t ∧ RestSame s t ∧
      t.ip = s.ip ∧ t.status = s.status) ∧
    (¬ s.inBounds a → (hostSetMem a v s).1 = s.faultedWith .outOfBounds a)

/-- 46_host_interface.md section 4: OUT_POP removes and gives the front value of `outq`, or answers "empty", and changes
nothing else; IN_PUSH of values one by one appends them to `inq` in order and changes nothing else. -/
def Obligations.QueuesAreFifo : Prop :=
  ∀ (s : State) (q : List Cell) (v : Cell), s.status ≠ .faulted →
    (s.outq = v :: q → hostOutPop s = ({ s with outq := q }, .value v)) ∧
    (s.outq = [] → hostOutPop s = (s, .empty)) ∧
    (q.foldl (fun u x => (hostInPush x u).1) s = { s with inq := s.inq ++ q })

/-- 46_host_interface.md section 6 (what the host cannot do): no command but CONSTRUCT, STEP and RUN changes `ip` or
MEMSIZE, and none of them changes `status`, `cause` or `finfo` but by the fault of a bad GET_MEM or SET_MEM address. -/
def Obligations.HostCannotTouchTheRegisters : Prop :=
  ∀ (mm : Config.MaxMem) (fuel : Nat) (c : Command) (s t : State) (r : Response),
    (∀ src cap, c ≠ .construct src cap) → c ≠ .step → c ≠ .run → perform mm fuel c s = some (t, r) →
    t.ip = s.ip ∧ t.memSize = s.memSize ∧
    ((t.status = s.status ∧ t.cause = s.cause ∧ t.finfo = s.finfo) ∨
      ∃ a, ¬ s.inBounds a ∧ (c = .getMem a ∨ ∃ v, c = .setMem a v) ∧ t = s.faultedWith .outOfBounds a)

/-- 46_host_interface.md R206: in Faulted every command but CONSTRUCT is a no-op: GET_MEM and OUT_POP return no value, STEP
and RUN return the recorded fault. Every one of them returns, RUN as soon as it is watched for one step. -/
def Obligations.FaultedIsAbsorbing : Prop :=
  ∀ (mm : Config.MaxMem) (fuel : Nat) (c : Command) (s : State), s.status = .faulted →
    (∀ src cap, c ≠ .construct src cap) →
    (∀ t r, perform mm fuel c s = some (t, r) →
      t = s ∧ (∀ a, c = .getMem a → r = .noValue) ∧ (c = .outPop → r = .noValue) ∧
        (c = .step ∨ c = .run → r = .result (.faulted s.cause s.finfo))) ∧
    (c ≠ .run → ∃ r, perform mm fuel c s = some (s, r)) ∧
    perform mm (fuel + 1) .run s = some (s, .result (.faulted s.cause s.finfo))

/-- 46_host_interface.md section 6: no command but CONSTRUCT makes a halted instance execute again: it stays Halted, its
`ip` and MEMSIZE unchanged, or a bad host address makes it Faulted. -/
def Obligations.HaltedCannotBeRestarted : Prop :=
  ∀ (mm : Config.MaxMem) (fuel : Nat) (c : Command) (s t : State) (r : Response), s.status = .halted →
    (∀ src cap, c ≠ .construct src cap) → perform mm fuel c s = some (t, r) →
    t.ip = s.ip ∧ t.memSize = s.memSize ∧
    (t.status = .halted ∨ ∃ a, ¬ s.inBounds a ∧ t = s.faultedWith .outOfBounds a)

/-- 46_host_interface.md R200: RUN is nothing but repeated STEP: it returns `r` in `t` exactly when some number of steps
end in `Continue`, leading to a state whose next step leads to `t` with the result `r`, which is not `Continue`. -/
def Obligations.RunIsRepeatedStep : Prop :=
  ∀ (s t : State) (r : StepResult),
    RunReturns s t r ↔
      ∃ (n : Nat) (u : State), Host.Core.run Sys2Proof.core n s = .next u ∧
        (∀ k v, k < n → Host.Core.run Sys2Proof.core (k + 1) s = .next v → v.result = .cont) ∧
        step u = .next t ∧ t.result = r ∧ r ≠ .cont

/-- 46_host_interface.md section 5: what RUN returns does not depend on how long it is watched, and a RUN either returns
or hangs. -/
def Obligations.RunHasOneOutcome : Prop :=
  (∀ (s t u : State) (r q : StepResult), RunReturns s t r → RunReturns s u q → t = u ∧ r = q) ∧
  (∀ s : State, RunHangs s ↔ ¬ ∃ t r, RunReturns s t r)

/-- 10_state.md section 8: a command on one instance leaves every other instance as it is. The numbered slots are the
model's form (notes/assumptions/14.md). -/
def Obligations.InstancesShareNothing : Prop :=
  ∀ (mm : Config.MaxMem) (fuel n m : Nat) (c : Command) (y z : System) (r : Response),
    y.perform mm fuel n c = some (z, r) → m ≠ n → z.slots[m]? = y.slots[m]?

/-- 10_state.md section 8: what a command does to an instance, and its response, depend on that instance alone: two
systems that agree on slot `n` agree on it after the command and on the response. The numbered slots are the model's
form (notes/assumptions/14.md). -/
def Obligations.InstancesDoNotLeak : Prop :=
  ∀ (mm : Config.MaxMem) (fuel n : Nat) (c : Command) (y y' z : System) (r : Response),
    y.slots[n]? = y'.slots[n]? → y.perform mm fuel n c = some (z, r) →
    ∃ z', y'.perform mm fuel n c = some (z', r) ∧ z'.slots[n]? = z.slots[n]?

/-- 46_host_interface.md section 7 (queue hand-off between instances): the front value of one instance's output queue
moves to the back of another's input queue, and nothing else of either changes. The numbered slots are the model's form
(notes/assumptions/14.md). -/
def Obligations.HandOffMovesOneValue : Prop :=
  ∀ (mm : Config.MaxMem) (i j : Nat) (y : System) (s t : State) (v : Cell) (q : List Cell), i ≠ j →
    y.slots[i]? = some (some s) → y.slots[j]? = some (some t) → s.status ≠ .faulted → t.status ≠ .faulted →
    s.outq = v :: q →
    ∃ z, y.handOff mm i j = some z ∧ z.slots[i]? = some (some { s with outq := q }) ∧
      z.slots[j]? = some (some { t with inq := t.inq ++ [v] })
end

