-- ==== Sys2Proof/Laws/Decode.lean ====
section
/-!
SUPPORT. The decoder: what a word decodes to, and that the encoder's words decode.
-/

namespace Sys2Proof

theorem Opcode.ofNum?_num (op : Opcode) : Opcode.ofNum? op.num = some op := by cases op <;> rfl

/-- The table's numbers are distinct, and `ofNum?` finds exactly them. -/
theorem Opcode.ofNum?_some {n : Nat} {op : Opcode} : Opcode.ofNum? n = some op ↔ n = op.num := by
  constructor
  · intro h
    simp only [Opcode.ofNum?] at h
    repeat' split at h
    all_goals first | (cases h; simp_all [Opcode.num]) | cases h
  · rintro rfl; exact Opcode.ofNum?_num op

theorem Opcode.ofNum?_none {n : Nat} (h : ∀ op : Opcode, n ≠ op.num) : Opcode.ofNum? n = none := by
  cases hn : Opcode.ofNum? n with
  | none => rfl
  | some op => exact absurd (Opcode.ofNum?_some.1 hn) (h op)

theorem Opcode.num_lt (op : Opcode) : op.num < 100 := by cases op <;> decide

/-- The read parameters are parameters 1 to `nreads`. -/
theorem Opcode.read_iff (op : Opcode) (k : Nat) :
    (1 ≤ k ∧ k ≤ op.nparams ∧ k ≠ op.writeParam) ↔ (1 ≤ k ∧ k ≤ op.nreads) := by
  cases op <;> simp only [Opcode.nparams, Opcode.writeParam, Opcode.nreads] <;> norm_num <;> omega

theorem digit_three (w : Nat) : digit 3 w = w / 100 % 10 := rfl

theorem digit_four (w : Nat) : digit 4 w = w / 1000 % 10 := rfl

/-- A mode digit decodes exactly when it is 0 or 1, to the mode with that number. -/
theorem readMode?_some {w k : Nat} {m : Mode} : readMode? w k = some m ↔ digit (k + 2) w = m.num := by
  simp only [readMode?]
  split
  · rename_i h; rw [h]; cases m <;> simp [Mode.num]
  · split
    · rename_i h0 h; rw [h]; cases m <;> simp [Mode.num]
    · rename_i h0 h1
      cases m <;> simp [Mode.num, h0, h1]

theorem readMode?_none {w k : Nat} : readMode? w k = none ↔ ¬ digit (k + 2) w ≤ 1 := by
  simp only [readMode?]
  split
  · simp; omega
  · split <;> simp <;> omega

/-- Small numbers as cells. -/
theorem ofNat_toNat_of_le {n : Nat} (h : n ≤ 9223372036854775807) : (BitVec.ofNat 64 n).toNat = n := by
  rw [BitVec.toNat_ofNat]; omega

theorem toInt_ofNat_of_le {n : Nat} (h : n ≤ 9223372036854775807) : (BitVec.ofNat 64 n).toInt = n := by
  rw [BitVec.toInt_eq_toNat_of_lt] <;> rw [ofNat_toNat_of_le h]
  omega

/-- A cell with a non-negative value has that value as its number. -/
theorem toNat_of_nonneg {w : Cell} (h : 0 ≤ w.toInt) : (w.toNat : Int) = w.toInt ∧ w.toNat ≤ 9223372036854775807 := by
  have := BitVec.toInt_eq_toNat_cond w
  have := w.isLt
  split at * <;> omega

theorem decodeWord_negative {w : Cell} (h : w.toInt < 0) : decodeWord w = .error .unknownOpcode := if_pos h

theorem decodeWord_unknown {w : Cell} (h : ∀ op : Opcode, w.toNat % 100 ≠ op.num) :
    decodeWord w = .error .unknownOpcode := by
  simp only [decodeWord, Opcode.ofNum?_none h]
  split <;> rfl

/-- A word with an opcode's number goes on to the mode stage. -/
theorem decodeWord_of_isOpcode {w : Cell} {op : Opcode} (h : Machine.IsOpcode w op) :
    decodeWord w = decodeModes op w.toNat := by
  have h1 := h.1
  simp only [decodeWord, h.2, Opcode.ofNum?_num]
  rw [if_neg (by omega)]

/-- Only words with an opcode's number decode. -/
theorem isOpcode_of_decodeWord {w : Cell} {d : Desc} (h : decodeWord w = .ok d) :
    ∃ op, Machine.IsOpcode w op ∧ decodeModes op w.toNat = .ok d := by
  simp only [decodeWord] at h
  split at h
  · cases h
  · split at h
    · cases h
    · rename_i hn op hop
      exact ⟨op, ⟨by omega, Opcode.ofNum?_some.1 hop⟩, h⟩

/-- The mode stage: everything it can answer. -/
theorem decodeModes_ok {op : Opcode} {n : Nat} {d : Desc} :
    decodeModes op n = .ok d ↔
      (op.nreads = 0 ∧ d = ⟨op, .position, .position, n / 100⟩) ∨
      (op.nreads = 1 ∧ ∃ m1, digit 3 n = m1.num ∧ d = ⟨op, m1, .position, n / 1000⟩) ∨
      (op.nreads = 2 ∧ ∃ m1 m2, digit 3 n = m1.num ∧ digit 4 n = m2.num ∧ d = ⟨op, m1, m2, n / 10000⟩) := by
  have hr : op.nreads = 0 ∨ op.nreads = 1 ∨ op.nreads = 2 := by cases op <;> decide
  have hm : ∀ {k : Nat} {m : Mode}, digit (k + 2) n = m.num ↔ readMode? n k = some m := readMode?_some.symm
  have h3 : ∀ m : Mode, digit 3 n = m.num ↔ readMode? n 1 = some m := fun m => hm (k := 1)
  have h4 : ∀ m : Mode, digit 4 n = m.num ↔ readMode? n 2 = some m := fun m => hm (k := 2)
  simp only [decodeModes, h3, h4]
  rcases hr with hr | hr | hr <;> rw [hr]
  · simp [eq_comm]
  · cases h1 : readMode? n 1 <;> simp [eq_comm]
  · cases h1 : readMode? n 1 <;> cases h2 : readMode? n 2 <;> simp [eq_comm]

/-- Legal digits on the read parameters are all the mode stage asks. -/
theorem decodeModes_ok_of_legal {w : Cell} {op : Opcode} (h : Machine.ModesLegal w op) :
    ∃ d, decodeModes op w.toNat = .ok d ∧ d.op = op := by
  have hm : ∀ {x : Nat}, x ≤ 1 → ∃ m : Mode, x = m.num := fun {x} hx => by
    rcases Nat.lt_or_ge x 1 with h0 | h1
    · exact ⟨.position, by simp only [Mode.num]; omega⟩
    · exact ⟨.immediate, by simp only [Mode.num]; omega⟩
  have hl : ∀ k, 1 ≤ k → k ≤ op.nreads → digit (k + 2) w.toNat ≤ 1 := fun k h1 h2 => by
    obtain ⟨a, b, c⟩ := (op.read_iff k).2 ⟨h1, h2⟩
    exact h k a b c
  have hr : op.nreads = 0 ∨ op.nreads = 1 ∨ op.nreads = 2 := by cases op <;> decide
  rcases hr with hr | hr | hr
  · exact ⟨_, decodeModes_ok.2 (.inl ⟨hr, rfl⟩), rfl⟩
  · obtain ⟨m1, h1⟩ := hm (hl 1 (by omega) (by omega))
    exact ⟨_, decodeModes_ok.2 (.inr (.inl ⟨hr, m1, h1, rfl⟩)), rfl⟩
  · obtain ⟨m1, h1⟩ := hm (hl 1 (by omega) (by omega))
    obtain ⟨m2, h2⟩ := hm (hl 2 (by omega) (by omega))
    exact ⟨_, decodeModes_ok.2 (.inr (.inr ⟨hr, m1, m2, h1, h2, rfl⟩)), rfl⟩

/-- An illegal digit on a read parameter is an illegal mode. -/
theorem decodeModes_illegal {w : Cell} {op : Opcode} (h : ¬ Machine.ModesLegal w op) :
    decodeModes op w.toNat = .error .illegalMode := by
  have hx : ∃ k, 1 ≤ k ∧ k ≤ op.nreads ∧ ¬ digit (k + 2) w.toNat ≤ 1 := by
    by_contra hc
    refine h fun k a b c => ?_
    by_contra hd
    obtain ⟨h1, h2⟩ := (op.read_iff k).1 ⟨a, b, c⟩
    exact hc ⟨k, h1, h2, hd⟩
  obtain ⟨k, h1, h2, hd⟩ := hx
  have hn := readMode?_none.2 hd
  have hr : op.nreads = 0 ∨ op.nreads = 1 ∨ op.nreads = 2 := by cases op <;> decide
  simp only [decodeModes]
  rcases hr with hr | hr | hr <;> rw [hr]
  · omega
  · have : k = 1 := by omega
    subst this; simp [hn]
  · have : k = 1 ∨ k = 2 := by omega
    rcases this with rfl | rfl
    · simp [hn]
    · simp [hn]

theorem Src.src_mode_raw (p : Src) : p.mode.src p.raw = p := by cases p <;> rfl

theorem Mode.mode_src (m : Mode) (n : Cell) : (m.src n).mode = m := by cases m <;> rfl

theorem Mode.raw_src (m : Mode) (n : Cell) : (m.src n).raw = n := by cases m <;> rfl

theorem Mode.num_le (m : Mode) : m.num ≤ 1 := by cases m <;> decide

/-- The descriptor keeps every digit of the word. -/
theorem wordNat_of_decodeWord {w : Cell} {d : Desc} (h : decodeWord w = .ok d) : d.wordNat = w.toNat := by
  obtain ⟨op, hop, hm⟩ := isOpcode_of_decodeWord h
  have h0 := hop.2
  rcases decodeModes_ok.1 hm with ⟨hr, rfl⟩ | ⟨hr, m1, h1, rfl⟩ | ⟨hr, m1, m2, h1, h2, rfl⟩
  · simp only [Desc.wordNat, hr]; omega
  · rw [digit_three] at h1; simp only [Desc.wordNat, hr]; omega
  · rw [digit_three] at h1; rw [digit_four] at h2; simp only [Desc.wordNat, hr]; omega

/-- The assembled instruction has the descriptor it was assembled from. -/
theorem desc_of_decodeWord {w : Cell} {d : Desc} (h : decodeWord w = .ok d) (raw : List Cell) :
    (d.assemble raw).desc = d := by
  obtain ⟨op, hop, hm⟩ := isOpcode_of_decodeWord h
  rcases decodeModes_ok.1 hm with ⟨hr, rfl⟩ | ⟨hr, m1, h1, rfl⟩ | ⟨hr, m1, m2, h1, h2, rfl⟩ <;>
    cases op <;> first | exact absurd hr (by decide) | simp [Desc.assemble, Instr.desc, Mode.mode_src]

/-- The word of the instruction a word decodes to is that word. -/
theorem word_of_decodeWord {w : Cell} {d : Desc} (h : decodeWord w = .ok d) (raw : List Cell) :
    (d.assemble raw).word = w := by
  rw [Instr.word, Instr.wordNat, desc_of_decodeWord h, wordNat_of_decodeWord h]
  exact BitVec.eq_of_toNat_eq (by rw [BitVec.toNat_ofNat]; exact Nat.mod_eq_of_lt w.isLt)

/-- An assembled instruction keeps its raw operands. -/
theorem Desc.operands_assemble (d : Desc) {raw : List Cell} (h : raw.length = d.op.nparams) :
    (d.assemble raw).operands = raw := by
  obtain ⟨op, m1, m2, ign⟩ := d
  cases op <;> simp only [Opcode.nparams] at h <;>
    rcases raw with _ | ⟨x, _ | ⟨y, _ | ⟨z, _ | ⟨u, t⟩⟩⟩⟩ <;>
    simp [Desc.assemble, Instr.operands, Mode.raw_src] at h ⊢

/-- A word that decodes, with exactly its operand cells after it, decodes to the assembled instruction and leaves nothing. -/
theorem decode_of_decodeWord {w : Cell} {d : Desc} {raw : List Cell} (h : decodeWord w = .ok d)
    (hl : raw.length = d.op.nparams) : decode (w :: raw) = .ok (d.assemble raw, []) := by
  simp [decode, h, ← hl]

end Sys2Proof
end

