-- ==== Sys2Proof/Laws/State.lean ====
section
/-!
SUPPORT. One lemma per field per update of the state, each true by definition, so that no later proof unfolds a record
update.
-/

namespace Sys2Proof.Machine

@[simp] theorem takeFault_memSize (e : Exc) (s : State) : (takeFault e s).memSize = s.memSize := rfl
@[simp] theorem takeFault_mem (e : Exc) (s : State) : (takeFault e s).mem = s.mem := rfl
@[simp] theorem takeFault_ip (e : Exc) (s : State) : (takeFault e s).ip = s.ip := rfl
@[simp] theorem takeFault_status (e : Exc) (s : State) : (takeFault e s).status = .faulted := rfl
@[simp] theorem takeFault_cause (e : Exc) (s : State) : (takeFault e s).cause = e.cause := rfl
@[simp] theorem takeFault_finfo (e : Exc) (s : State) : (takeFault e s).finfo = e.info := rfl
@[simp] theorem takeFault_inq (e : Exc) (s : State) : (takeFault e s).inq = s.inq := rfl
@[simp] theorem takeFault_outq (e : Exc) (s : State) : (takeFault e s).outq = s.outq := rfl

@[simp] theorem State.advance_memSize (n : Nat) (s : State) : (s.advance n).memSize = s.memSize := rfl
@[simp] theorem State.advance_mem (n : Nat) (s : State) : (s.advance n).mem = s.mem := rfl
@[simp] theorem State.advance_ip (n : Nat) (s : State) : (s.advance n).ip = s.ip + BitVec.ofNat 64 (1 + n) := rfl
@[simp] theorem State.advance_status (n : Nat) (s : State) : (s.advance n).status = .running := rfl
@[simp] theorem State.advance_cause (n : Nat) (s : State) : (s.advance n).cause = s.cause := rfl
@[simp] theorem State.advance_finfo (n : Nat) (s : State) : (s.advance n).finfo = s.finfo := rfl
@[simp] theorem State.advance_inq (n : Nat) (s : State) : (s.advance n).inq = s.inq := rfl
@[simp] theorem State.advance_outq (n : Nat) (s : State) : (s.advance n).outq = s.outq := rfl

@[simp] theorem State.jumpTo_memSize (a : Cell) (s : State) : (s.jumpTo a).memSize = s.memSize := rfl
@[simp] theorem State.jumpTo_mem (a : Cell) (s : State) : (s.jumpTo a).mem = s.mem := rfl
@[simp] theorem State.jumpTo_ip (a : Cell) (s : State) : (s.jumpTo a).ip = a := rfl
@[simp] theorem State.jumpTo_status (a : Cell) (s : State) : (s.jumpTo a).status = .running := rfl
@[simp] theorem State.jumpTo_cause (a : Cell) (s : State) : (s.jumpTo a).cause = s.cause := rfl
@[simp] theorem State.jumpTo_finfo (a : Cell) (s : State) : (s.jumpTo a).finfo = s.finfo := rfl
@[simp] theorem State.jumpTo_inq (a : Cell) (s : State) : (s.jumpTo a).inq = s.inq := rfl
@[simp] theorem State.jumpTo_outq (a : Cell) (s : State) : (s.jumpTo a).outq = s.outq := rfl

@[simp] theorem State.block_memSize (s : State) : s.block.memSize = s.memSize := rfl
@[simp] theorem State.block_mem (s : State) : s.block.mem = s.mem := rfl
@[simp] theorem State.block_ip (s : State) : s.block.ip = s.ip := rfl
@[simp] theorem State.block_status (s : State) : s.block.status = .blocked := rfl
@[simp] theorem State.block_cause (s : State) : s.block.cause = s.cause := rfl
@[simp] theorem State.block_finfo (s : State) : s.block.finfo = s.finfo := rfl
@[simp] theorem State.block_inq (s : State) : s.block.inq = s.inq := rfl
@[simp] theorem State.block_outq (s : State) : s.block.outq = s.outq := rfl

@[simp] theorem State.halt_memSize (s : State) : s.halt.memSize = s.memSize := rfl
@[simp] theorem State.halt_mem (s : State) : s.halt.mem = s.mem := rfl
@[simp] theorem State.halt_ip (s : State) : s.halt.ip = s.ip := rfl
@[simp] theorem State.halt_status (s : State) : s.halt.status = .halted := rfl
@[simp] theorem State.halt_cause (s : State) : s.halt.cause = s.cause := rfl
@[simp] theorem State.halt_finfo (s : State) : s.halt.finfo = s.finfo := rfl
@[simp] theorem State.halt_inq (s : State) : s.halt.inq = s.inq := rfl
@[simp] theorem State.halt_outq (s : State) : s.halt.outq = s.outq := rfl

@[simp] theorem State.withInq_memSize (q : List Cell) (s : State) : (s.withInq q).memSize = s.memSize := rfl
@[simp] theorem State.withInq_mem (q : List Cell) (s : State) : (s.withInq q).mem = s.mem := rfl
@[simp] theorem State.withInq_ip (q : List Cell) (s : State) : (s.withInq q).ip = s.ip := rfl
@[simp] theorem State.withInq_status (q : List Cell) (s : State) : (s.withInq q).status = s.status := rfl
@[simp] theorem State.withInq_cause (q : List Cell) (s : State) : (s.withInq q).cause = s.cause := rfl
@[simp] theorem State.withInq_finfo (q : List Cell) (s : State) : (s.withInq q).finfo = s.finfo := rfl
@[simp] theorem State.withInq_inq (q : List Cell) (s : State) : (s.withInq q).inq = q := rfl
@[simp] theorem State.withInq_outq (q : List Cell) (s : State) : (s.withInq q).outq = s.outq := rfl

@[simp] theorem State.pushIn_memSize (v : Cell) (s : State) : (s.pushIn v).memSize = s.memSize := rfl
@[simp] theorem State.pushIn_mem (v : Cell) (s : State) : (s.pushIn v).mem = s.mem := rfl
@[simp] theorem State.pushIn_ip (v : Cell) (s : State) : (s.pushIn v).ip = s.ip := rfl
@[simp] theorem State.pushIn_status (v : Cell) (s : State) : (s.pushIn v).status = s.status := rfl
@[simp] theorem State.pushIn_cause (v : Cell) (s : State) : (s.pushIn v).cause = s.cause := rfl
@[simp] theorem State.pushIn_finfo (v : Cell) (s : State) : (s.pushIn v).finfo = s.finfo := rfl
@[simp] theorem State.pushIn_inq (v : Cell) (s : State) : (s.pushIn v).inq = s.inq ++ [v] := rfl
@[simp] theorem State.pushIn_outq (v : Cell) (s : State) : (s.pushIn v).outq = s.outq := rfl

@[simp] theorem State.pushOut_memSize (v : Cell) (s : State) : (s.pushOut v).memSize = s.memSize := rfl
@[simp] theorem State.pushOut_mem (v : Cell) (s : State) : (s.pushOut v).mem = s.mem := rfl
@[simp] theorem State.pushOut_ip (v : Cell) (s : State) : (s.pushOut v).ip = s.ip := rfl
@[simp] theorem State.pushOut_status (v : Cell) (s : State) : (s.pushOut v).status = s.status := rfl
@[simp] theorem State.pushOut_cause (v : Cell) (s : State) : (s.pushOut v).cause = s.cause := rfl
@[simp] theorem State.pushOut_finfo (v : Cell) (s : State) : (s.pushOut v).finfo = s.finfo := rfl
@[simp] theorem State.pushOut_inq (v : Cell) (s : State) : (s.pushOut v).inq = s.inq := rfl
@[simp] theorem State.pushOut_outq (v : Cell) (s : State) : (s.pushOut v).outq = s.outq ++ [v] := rfl

@[simp] theorem State.withOutq_memSize (q : List Cell) (s : State) : (s.withOutq q).memSize = s.memSize := rfl
@[simp] theorem State.withOutq_mem (q : List Cell) (s : State) : (s.withOutq q).mem = s.mem := rfl
@[simp] theorem State.withOutq_ip (q : List Cell) (s : State) : (s.withOutq q).ip = s.ip := rfl
@[simp] theorem State.withOutq_status (q : List Cell) (s : State) : (s.withOutq q).status = s.status := rfl
@[simp] theorem State.withOutq_cause (q : List Cell) (s : State) : (s.withOutq q).cause = s.cause := rfl
@[simp] theorem State.withOutq_finfo (q : List Cell) (s : State) : (s.withOutq q).finfo = s.finfo := rfl
@[simp] theorem State.withOutq_inq (q : List Cell) (s : State) : (s.withOutq q).inq = s.inq := rfl
@[simp] theorem State.withOutq_outq (q : List Cell) (s : State) : (s.withOutq q).outq = q := rfl

@[simp] theorem State.faultedWith_memSize (c : Cause) (f : Cell) (s : State) : (s.faultedWith c f).memSize = s.memSize := rfl
@[simp] theorem State.faultedWith_mem (c : Cause) (f : Cell) (s : State) : (s.faultedWith c f).mem = s.mem := rfl
@[simp] theorem State.faultedWith_ip (c : Cause) (f : Cell) (s : State) : (s.faultedWith c f).ip = s.ip := rfl
@[simp] theorem State.faultedWith_status (c : Cause) (f : Cell) (s : State) : (s.faultedWith c f).status = .faulted := rfl
@[simp] theorem State.faultedWith_cause (c : Cause) (f : Cell) (s : State) : (s.faultedWith c f).cause = c := rfl
@[simp] theorem State.faultedWith_finfo (c : Cause) (f : Cell) (s : State) : (s.faultedWith c f).finfo = f := rfl
@[simp] theorem State.faultedWith_inq (c : Cause) (f : Cell) (s : State) : (s.faultedWith c f).inq = s.inq := rfl
@[simp] theorem State.faultedWith_outq (c : Cause) (f : Cell) (s : State) : (s.faultedWith c f).outq = s.outq := rfl

/-- Fault entry writes the three registers and nothing else. -/
theorem takeFault_eq (e : Exc) (s : State) : takeFault e s = s.faultedWith e.cause e.info := rfl

end Sys2Proof.Machine
end

