-- ==== Sys2Proof/Laws/Memory.lean ====
section
/-!
SUPPORT. The memory as a list: reads after writes, and the canonical form, which every operation keeps.
-/

namespace Sys2Proof.Machine

theorem Memory.wf_cons {k : Nat} {x : Cell} {t : Memory} :
    Memory.wf ((k, x) :: t) ↔ (∀ p ∈ t, k < p.1) ∧ x ≠ 0 ∧ t.wf := by
  simp only [Memory.wf, List.pairwise_cons, List.forall_mem_cons]
  tauto

theorem Memory.wf_nil : Memory.wf [] := by simp [Memory.wf]

/-- An address below every listed one is not listed. -/
theorem Memory.get_of_lt {m : Memory} {a : Nat} (h : ∀ p ∈ m, a < p.1) : m.get a = 0 := by
  induction m with
  | nil => rfl
  | cons p t ih =>
    obtain ⟨k, x⟩ := p
    have hk := h (k, x) (by simp)
    simp only [Memory.get]
    rw [if_neg (by omega), ih fun q hq => h q (by simp [hq])]

/-- A write leaves every other address alone. -/
theorem Memory.get_set_other (m : Memory) {a b : Nat} (v : Cell) (h : b ≠ a) : (m.set a v).get b = m.get b := by
  induction m with
  | nil => simp only [Memory.set]; split <;> simp [Memory.get, h]
  | cons p t ih =>
    obtain ⟨k, x⟩ := p
    simp only [Memory.set]
    split
    · split <;> simp [Memory.get, h]
    · split
      · rename_i hk; subst hk; split <;> simp [Memory.get, h]
      · simp [Memory.get, ih]

/-- A read after a write to the same address gives the value written. -/
theorem Memory.get_set_same {m : Memory} (hm : m.wf) (a : Nat) (v : Cell) : (m.set a v).get a = v := by
  induction m with
  | nil => simp only [Memory.set]; split <;> simp_all [Memory.get]
  | cons p t ih =>
    obtain ⟨k, x⟩ := p
    obtain ⟨hk, hx, ht⟩ := Memory.wf_cons.1 hm
    simp only [Memory.set]
    split
    · rename_i hak
      split
      · rename_i hv
        rw [hv, Memory.get_of_lt]
        rintro ⟨k', x'⟩ hq
        rcases List.mem_cons.1 hq with hq | hq
        · simp_all
        · have := hk _ hq; simp only at this ⊢; omega
      · simp [Memory.get]
    · split
      · rename_i hak
        split
        · rename_i hv; rw [hv, Memory.get_of_lt]; rw [hak]; exact hk
        · simp [Memory.get]
      · rename_i hak
        simp [Memory.get, hak, ih ht]

/-- Every entry after a write is an old one or the one written. -/
theorem Memory.mem_set {m : Memory} {a : Nat} {v : Cell} {p : Nat × Cell} (h : p ∈ m.set a v) :
    p ∈ m ∨ (p = (a, v) ∧ v ≠ 0) := by
  induction m with
  | nil => simp only [Memory.set] at h; split at h <;> simp_all
  | cons q t ih =>
    obtain ⟨k, x⟩ := q
    simp only [Memory.set] at h
    split at h
    · split at h
      · exact .inl h
      · rcases List.mem_cons.1 h with h | h
        · exact .inr ⟨h, by assumption⟩
        · exact .inl h
    · split at h
      · split at h
        · exact .inl (List.mem_cons_of_mem _ h)
        · rcases List.mem_cons.1 h with h | h
          · exact .inr ⟨h, by assumption⟩
          · exact .inl (List.mem_cons_of_mem _ h)
      · rcases List.mem_cons.1 h with h | h
        · exact .inl (by simp [h])
        · rcases ih h with h | h
          · exact .inl (List.mem_cons_of_mem _ h)
          · exact .inr h

/-- A write keeps the canonical form. -/
theorem Memory.set_wf {m : Memory} (hm : m.wf) (a : Nat) (v : Cell) : (m.set a v).wf := by
  induction m with
  | nil =>
    simp only [Memory.set]
    split
    · exact Memory.wf_nil
    · exact Memory.wf_cons.2 ⟨by simp, by assumption, Memory.wf_nil⟩
  | cons p t ih =>
    obtain ⟨k, x⟩ := p
    have hm' := hm
    obtain ⟨hk, hx, ht⟩ := Memory.wf_cons.1 hm
    simp only [Memory.set]
    split
    · rename_i hak
      split
      · exact hm
      · refine Memory.wf_cons.2 ⟨?_, by assumption, hm'⟩
        rintro ⟨k', x'⟩ hq
        rcases List.mem_cons.1 hq with hq | hq
        · simp_all
        · have := hk _ hq; simp only at this ⊢; omega
    · split
      · rename_i hak
        split
        · exact ht
        · exact Memory.wf_cons.2 ⟨by rw [hak]; exact hk, by assumption, ht⟩
      · refine Memory.wf_cons.2 ⟨?_, hx, ih ht⟩
        intro q hq
        rcases Memory.mem_set hq with hq | ⟨rfl, -⟩
        · exact hk q hq
        · simp only; omega

/-- The entries of a program's memory lie within the program's addresses. -/
theorem Memory.ofCells_bound {a : Nat} {vs : List Cell} {p : Nat × Cell} (h : p ∈ Memory.ofCells a vs) :
    a ≤ p.1 ∧ p.1 < a + vs.length := by
  induction vs generalizing a with
  | nil => simp [Memory.ofCells] at h
  | cons v t ih =>
    simp only [Memory.ofCells] at h
    simp only [List.length_cons]
    split at h
    · have := ih h; omega
    · rcases List.mem_cons.1 h with rfl | h
      · simp only; omega
      · have := ih h; omega

/-- A program's memory is in canonical form. -/
theorem Memory.ofCells_wf (a : Nat) (vs : List Cell) : (Memory.ofCells a vs).wf := by
  induction vs generalizing a with
  | nil => exact Memory.wf_nil
  | cons v t ih =>
    simp only [Memory.ofCells]
    split
    · exact ih _
    · refine Memory.wf_cons.2 ⟨fun p hp => ?_, by assumption, ih _⟩
      have := Memory.ofCells_bound hp
      omega

/-- A program's memory reads as the program, and as 0 elsewhere. -/
theorem Memory.ofCells_get (a b : Nat) (vs : List Cell) :
    (Memory.ofCells a vs).get b = if a ≤ b then vs.getD (b - a) 0 else 0 := by
  induction vs generalizing a with
  | nil => simp [Memory.ofCells, Memory.get]
  | cons v t ih =>
    simp only [Memory.ofCells]
    have tail : b ≠ a → (Memory.ofCells (a + 1) t).get b = if a ≤ b then (v :: t).getD (b - a) 0 else 0 := by
      intro hb
      rw [ih]
      split
      · rw [if_pos (by omega), show b - a = (b - (a + 1)) + 1 by omega]; simp
      · rw [if_neg (by omega)]
    by_cases hb : b = a
    · subst hb
      split
      · rw [ih]; simp_all
      · simp [Memory.get]
    · split
      · exact tail hb
      · simp only [Memory.get]; rw [if_neg hb, tail hb]

/-- Memories in canonical form that read alike everywhere are equal data. -/
theorem Memory.ext_of_wf {m n : Memory} (hm : m.wf) (hn : n.wf) (h : ∀ a, m.get a = n.get a) : m = n := by
  induction m generalizing n with
  | nil =>
    cases n with
    | nil => rfl
    | cons q t =>
      obtain ⟨k, x⟩ := q
      have := h k
      simp only [Memory.get, if_true] at this
      exact absurd this.symm (Memory.wf_cons.1 hn).2.1
  | cons p t ih =>
    obtain ⟨k, x⟩ := p
    obtain ⟨hk, hx, ht⟩ := Memory.wf_cons.1 hm
    cases n with
    | nil =>
      have := h k
      simp only [Memory.get, if_true] at this
      exact absurd this hx
    | cons q u =>
      obtain ⟨l, y⟩ := q
      obtain ⟨hl, hy, hu⟩ := Memory.wf_cons.1 hn
      have low : ∀ {j i : Nat} {w : Memory}, (∀ r ∈ w, i < r.1) → j ≤ i → w.get j = 0 := fun hw hj =>
        Memory.get_of_lt fun r hr => by have := hw r hr; omega
      have hkl : k = l := by
        rcases Nat.lt_trichotomy k l with hlt | heq | hgt
        · have := h k
          simp only [Memory.get, if_true] at this
          rw [if_neg (by omega), low hl (by omega)] at this
          exact absurd this hx
        · exact heq
        · have := h l
          simp only [Memory.get, if_true] at this
          rw [if_neg (by omega), low hk (by omega)] at this
          exact absurd this.symm hy
      subst hkl
      have hxy : x = y := by have := h k; simpa [Memory.get] using this
      subst hxy
      congr 1
      refine ih ht hu fun a => ?_
      by_cases hak : a = k
      · subst hak; rw [low hk (Nat.le_refl _), low hl (Nat.le_refl _)]
      · have := h a; simpa [Memory.get, hak] using this

end Sys2Proof.Machine
end

