-- ==== Sys2Proof/Laws/Ops.lean ====
section
/-!
SUPPORT. What the shared operations can do: memory access, operands, the two instruction shapes. Callers cite these
instead of unfolding the operations.
-/

namespace Sys2Proof.Machine

/-! ## Memory access -/

theorem memRead_inBounds {s : State} {a : Cell} (h : s.inBounds a) : memRead s a = .ok (s.mem.get a.toInt.toNat) :=
  if_pos h

theorem memRead_outOfBounds {s : State} {a : Cell} (h : ¬ s.inBounds a) : memRead s a = .error (.outOfBounds a) :=
  if_neg h

/-- A read that gives a value is in bounds and gives the listed one. -/
theorem memRead_ok {s : State} {a v : Cell} : memRead s a = .ok v ↔ s.inBounds a ∧ s.mem.get a.toInt.toNat = v := by
  by_cases h : s.inBounds a
  · rw [memRead_inBounds h]; exact ⟨fun he => ⟨h, Except.ok.inj he⟩, fun he => congrArg _ he.2⟩
  · rw [memRead_outOfBounds h]; exact ⟨fun he => (nomatch he), fun he => absurd he.1 h⟩

/-- A read fails only by its address. -/
theorem memRead_error {s : State} {a : Cell} {e : Exc} :
    memRead s a = .error e ↔ ¬ s.inBounds a ∧ e = .outOfBounds a := by
  by_cases h : s.inBounds a
  · rw [memRead_inBounds h]; exact ⟨fun he => (nomatch he), fun he => absurd h he.1⟩
  · rw [memRead_outOfBounds h]
    exact ⟨fun he => ⟨h, (Except.error.inj he).symm⟩, fun he => congrArg _ he.2.symm⟩

/-- A read looks at `memSize` and `mem` alone. -/
theorem memRead_congr {s t : State} (hs : t.memSize = s.memSize) (hm : t.mem = s.mem) (a : Cell) :
    memRead t a = memRead s a := by
  simp [memRead, State.inBounds, hs, hm]

/-- `s` with `v` in the cell at `a`. -/
abbrev State.withCell (s : State) (a v : Cell) : State := { s with mem := s.mem.set a.toInt.toNat v }

theorem memWrite_inBounds {s : State} {a : Cell} (v : Cell) (h : s.inBounds a) :
    memWrite s a v = .ok (s.withCell a v) :=
  if_pos h

theorem memWrite_outOfBounds {s : State} {a : Cell} (v : Cell) (h : ¬ s.inBounds a) :
    memWrite s a v = .error (.outOfBounds a) :=
  if_neg h

/-- Two addresses in bounds are the same when their memory keys are. -/
theorem inBounds_key {s : State} {a b : Cell} (ha : s.inBounds a) (hb : s.inBounds b)
    (h : b.toInt.toNat = a.toInt.toNat) : b = a := by
  apply BitVec.eq_of_toInt_eq
  have := ha.1; have := hb.1
  omega

/-- The cell written reads as the value written. -/
theorem withCell_holds {s t : State} {a v : Cell} (hm : s.mem.wf) (ha : s.inBounds a) (hs : t.memSize = s.memSize)
    (ht : t.mem = (s.withCell a v).mem) : t.Holds a v := by
  refine memRead_ok.2 ⟨?_, ?_⟩
  · simpa [State.inBounds, hs] using ha
  · rw [ht]; exact Memory.get_set_same hm _ _

/-- No other address reads differently. -/
theorem withCell_memSameBut {s t : State} {a v : Cell} (ha : s.inBounds a) (hs : t.memSize = s.memSize)
    (ht : t.mem = (s.withCell a v).mem) : MemSameBut a s t := by
  refine ⟨hs, fun x hx => ?_⟩
  by_cases hb : s.inBounds x
  · have hb' : t.inBounds x := by simpa [State.inBounds, hs] using hb
    rw [memRead_inBounds hb, memRead_inBounds hb', ht]
    exact congrArg _ (Memory.get_set_other _ _ fun h => hx (inBounds_key ha hb h))
  · have hb' : ¬ t.inBounds x := by simpa [State.inBounds, hs] using hb
    rw [memRead_outOfBounds hb, memRead_outOfBounds hb']

/-- Reading the cells that stand from an address on. -/
theorem readCells_of_holdsCells {s : State} {a : Cell} {cs : List Cell} (h : s.HoldsCells a cs) :
    readCells s a cs.length = .ok cs := by
  induction cs generalizing a with
  | nil => rfl
  | cons c t ih =>
    obtain ⟨h1, h2⟩ := h
    have h1' : memRead s a = .ok c := h1
    rw [List.length_cons, readCells, h1', ih h2]

/-- What `readCells` gives stands there. -/
theorem holdsCells_of_readCells {s : State} {a : Cell} {n : Nat} {cs : List Cell} (h : readCells s a n = .ok cs) :
    s.HoldsCells a cs ∧ cs.length = n := by
  induction n generalizing a cs with
  | zero => simp only [readCells, Except.ok.injEq] at h; subst h; exact ⟨trivial, rfl⟩
  | succ n ih =>
    simp only [readCells] at h
    split at h
    · cases h
    · rename_i c hc
      split at h
      · cases h
      · rename_i ds hds
        simp only [Except.ok.injEq] at h
        subst h
        obtain ⟨h1, h2⟩ := ih hds
        exact ⟨⟨hc, h1⟩, by simp [h2]⟩

/-- The first address out of range is the one reported. -/
theorem readCells_error {s : State} {a : Cell} {cs : List Cell} {n : Nat} (h : s.HoldsCells a cs) (hn : cs.length < n)
    (hb : ¬ s.inBounds (a + BitVec.ofNat 64 cs.length)) :
    readCells s a n = .error (.outOfBounds (a + BitVec.ofNat 64 cs.length)) := by
  induction cs generalizing a n with
  | nil =>
    cases n with
    | zero => simp at hn
    | succ n =>
      have ha : a + BitVec.ofNat 64 ([] : List Cell).length = a := by simp
      rw [ha] at hb ⊢
      simp [readCells, memRead_outOfBounds hb]
  | cons c t ih =>
    cases n with
    | zero => simp at hn
    | succ n =>
      have ha : a + BitVec.ofNat 64 (c :: t).length = a + 1 + BitVec.ofNat 64 t.length := by
        rw [List.length_cons, BitVec.add_assoc]
        congr 1
        apply BitVec.eq_of_toNat_eq
        simp [BitVec.toNat_add, Nat.add_comm]
      rw [ha] at hb ⊢
      obtain ⟨h1, h2⟩ := h
      have hr := ih h2 (by simpa using hn) hb
      have h1' : memRead s a = .ok c := h1
      rw [readCells, h1', hr]

/-- `readCells` fails only by an address out of bounds. -/
theorem readCells_error_kind {s : State} {a : Cell} {n : Nat} {e : Exc} (h : readCells s a n = .error e) :
    ∃ b, e = .outOfBounds b := by
  induction n generalizing a with
  | zero => simp [readCells] at h
  | succ n ih =>
    simp only [readCells] at h
    split at h
    · rename_i e' he
      simp only [Except.error.injEq] at h
      subst h
      exact ⟨_, (memRead_error.1 he).2⟩
    · split at h
      · rename_i e' he
        simp only [Except.error.injEq] at h
        subst h
        exact ih he
      · cases h

/-! ## Numbers -/

/-- A value that fits a cell narrows to the cell that has that value. -/
theorem narrow?_of_inCell {r : Int} (h : InCell r) : ∃ c, narrow? r = some c ∧ c.toInt = r := by
  refine ⟨BitVec.ofInt 64 r, if_pos h, ?_⟩
  obtain ⟨h1, h2⟩ := h
  simp only [Config.cellMin, Config.cellMax] at h1 h2
  rw [BitVec.toInt_ofInt]
  exact Int.bmod_eq_of_le (by omega) (by omega)

theorem narrow?_of_not_inCell {r : Int} (h : ¬ InCell r) : narrow? r = none := if_neg h

/-- Narrowing gives a value exactly for those that fit, and keeps them. -/
theorem narrow?_some {r : Int} {c : Cell} : narrow? r = some c ↔ c.toInt = r := by
  constructor
  · intro h
    by_cases hr : InCell r
    · obtain ⟨c', h1, h2⟩ := narrow?_of_inCell hr
      rw [h1] at h; cases h; exact h2
    · rw [narrow?_of_not_inCell hr] at h; cases h
  · rintro rfl
    have hr : InCell c.toInt := by
      have := BitVec.toInt_lt (x := c); have := BitVec.le_toInt (x := c)
      simp only [InCell, Config.cellMin, Config.cellMax]; omega
    obtain ⟨c', h1, h2⟩ := narrow?_of_inCell hr
    rw [h1, BitVec.eq_of_toInt_eq h2]

theorem exactOrOverflow_of_inCell {w : Cell} {r : Int} (h : InCell r) :
    ∃ c, exactOrOverflow w r = .ok c ∧ c.toInt = r := by
  obtain ⟨c, h1, h2⟩ := narrow?_of_inCell h
  exact ⟨c, by simp [exactOrOverflow, h1], h2⟩

theorem exactOrOverflow_of_not_inCell {w : Cell} {r : Int} (h : ¬ InCell r) :
    exactOrOverflow w r = .error (.arithmeticOverflow w) := by
  simp [exactOrOverflow, narrow?_of_not_inCell h]

/-! ## Operands and the two shapes -/

/-- A read parameter fails only by its address. -/
theorem resolve_error {s : State} {p : Src} {e : Exc} (h : resolve s p = .error e) :
    ∃ n, p = .pos n ∧ ¬ s.inBounds n ∧ e = .outOfBounds n := by
  cases p with
  | pos n => obtain ⟨h1, h2⟩ := memRead_error.1 h; exact ⟨n, rfl, h1, h2⟩
  | imm n => cases h

/-- Two operands that resolve. -/
theorem resolve2_ok {s : State} {s1 s2 : Src} {a b : Cell} :
    resolve2 s s1 s2 = .ok (a, b) ↔ resolve s s1 = .ok a ∧ resolve s s2 = .ok b := by
  simp only [resolve2]
  cases h1 : resolve s s1 with
  | error e => simp
  | ok a' =>
    cases h2 : resolve s s2 with
    | error e => simp
    | ok b' => simp

theorem resolve2_error_left {s : State} {s1 s2 : Src} {e : Exc} (h : resolve s s1 = .error e) :
    resolve2 s s1 s2 = .error e := by simp [resolve2, h]

theorem resolve2_error_right {s : State} {s1 s2 : Src} {a : Cell} {e : Exc} (h1 : resolve s s1 = .ok a)
    (h2 : resolve s s2 = .error e) : resolve2 s s1 s2 = .error e := by simp [resolve2, h1, h2]

/-- Two operands fail only by an address out of bounds. -/
theorem resolve2_error {s : State} {s1 s2 : Src} {e : Exc} (h : resolve2 s s1 s2 = .error e) :
    ∃ n, e = .outOfBounds n := by
  simp only [resolve2] at h
  split at h
  · rename_i e' h1
    simp only [Except.error.injEq] at h; subst h
    obtain ⟨n, -, -, rfl⟩ := resolve_error h1; exact ⟨n, rfl⟩
  · split at h
    · rename_i e' h2
      simp only [Except.error.injEq] at h; subst h
      obtain ⟨n, -, -, rfl⟩ := resolve_error h2; exact ⟨n, rfl⟩
    · cases h

/-- The storing shape completes. -/
theorem computeStore_ok {s : State} {s1 s2 : Src} {d a b r : Cell} {f : Cell → Cell → Except Exc Cell}
    (h1 : resolve s s1 = .ok a) (h2 : resolve s s2 = .ok b) (hf : f a b = .ok r) (hd : s.inBounds d) :
    computeStore s s1 s2 d f = .ok ((s.withCell d r).advance 3) := by
  simp [computeStore, resolve2_ok.2 ⟨h1, h2⟩, hf, memWrite_inBounds r hd]

/-- The storing shape: a failing computation is reported before the destination. -/
theorem computeStore_error_compute {s : State} {s1 s2 : Src} {d a b : Cell} {e : Exc}
    {f : Cell → Cell → Except Exc Cell} (h1 : resolve s s1 = .ok a) (h2 : resolve s s2 = .ok b)
    (hf : f a b = .error e) : computeStore s s1 s2 d f = .error e := by
  simp [computeStore, resolve2_ok.2 ⟨h1, h2⟩, hf]

/-- The storing shape: a destination out of bounds. -/
theorem computeStore_error_dst {s : State} {s1 s2 : Src} {d a b r : Cell} {f : Cell → Cell → Except Exc Cell}
    (h1 : resolve s s1 = .ok a) (h2 : resolve s s2 = .ok b) (hf : f a b = .ok r) (hd : ¬ s.inBounds d) :
    computeStore s s1 s2 d f = .error (.outOfBounds d) := by
  simp [computeStore, resolve2_ok.2 ⟨h1, h2⟩, hf, memWrite_outOfBounds r hd]

/-- The storing shape: an operand that fails. -/
theorem computeStore_error_operands {s : State} {s1 s2 : Src} {d : Cell} {e : Exc}
    {f : Cell → Cell → Except Exc Cell} (h : resolve2 s s1 s2 = .error e) : computeStore s s1 s2 d f = .error e := by
  simp [computeStore, h]

/-- Everything the storing shape can do: it stores one value at `d` and advances, or it fails. -/
theorem computeStore_cases {s t : State} {s1 s2 : Src} {d : Cell} {f : Cell → Cell → Except Exc Cell}
    (h : computeStore s s1 s2 d f = .ok t) :
    ∃ a b r, resolve s s1 = .ok a ∧ resolve s s2 = .ok b ∧ f a b = .ok r ∧ s.inBounds d ∧
      t = (s.withCell d r).advance 3 := by
  simp only [computeStore] at h
  split at h
  · cases h
  · rename_i a b hab
    obtain ⟨h1, h2⟩ := resolve2_ok.1 hab
    split at h
    · cases h
    · rename_i r hf
      by_cases hd : s.inBounds d
      · rw [memWrite_inBounds r hd] at h
        simp only [Except.ok.injEq] at h
        exact ⟨a, b, r, h1, h2, hf, hd, h.symm⟩
      · rw [memWrite_outOfBounds r hd] at h
        cases h

/-- The jumping shape. -/
theorem condJump_ok {s : State} {s1 s2 : Src} {a b : Cell} {taken : Cell → Bool} (h1 : resolve s s1 = .ok a)
    (h2 : resolve s s2 = .ok b) :
    condJump s s1 s2 taken = .ok (if taken a then s.jumpTo b else s.advance 2) := by
  simp [condJump, resolve2_ok.2 ⟨h1, h2⟩]

theorem condJump_error {s : State} {s1 s2 : Src} {e : Exc} {taken : Cell → Bool}
    (h : resolve2 s s1 s2 = .error e) : condJump s s1 s2 taken = .error e := by
  simp [condJump, h]

/-- Everything the jumping shape can do. -/
theorem condJump_cases {s t : State} {s1 s2 : Src} {taken : Cell → Bool} (h : condJump s s1 s2 taken = .ok t) :
    ∃ a b, resolve s s1 = .ok a ∧ resolve s s2 = .ok b ∧ t = if taken a then s.jumpTo b else s.advance 2 := by
  simp only [condJump] at h
  split at h
  · cases h
  · rename_i a b hab
    obtain ⟨h1, h2⟩ := resolve2_ok.1 hab
    simp only [Except.ok.injEq] at h
    exact ⟨a, b, h1, h2, h.symm⟩

end Sys2Proof.Machine
end

