-- ==== Sys2Proof/Laws/Step.lean ====
section
/-!
SUPPORT. What fetching, executing and stepping can do, each said once.
-/

namespace Sys2Proof.Machine

/-- An instruction is fetched exactly when its word is in memory and decodes and its operand cells are in memory. -/
theorem fetchInstr_ok {s : State} {i : Instr} :
    fetchInstr s = .ok i ↔
      ∃ w d raw, s.Holds s.ip w ∧ decodeWord w = .ok d ∧ s.HoldsCells (s.ip + 1) raw ∧ raw.length = d.op.nparams ∧
        i = d.assemble raw := by
  constructor
  · intro h
    simp only [fetchInstr] at h
    split at h
    · cases h
    · rename_i w hw
      split at h
      · cases h
      · rename_i d hd
        split at h
        · cases h
        · rename_i raw hr
          obtain ⟨h1, h2⟩ := holdsCells_of_readCells hr
          exact ⟨w, d, raw, hw, hd, h1, h2, (Except.ok.inj h).symm⟩
  · rintro ⟨w, d, raw, hw, hd, hr, hl, rfl⟩
    have hw' : memRead s s.ip = .ok w := hw
    have hr' := readCells_of_holdsCells hr
    rw [hl] at hr'
    simp only [fetchInstr, hw', hd, hr']

/-- A step in `Running` or `Blocked`. -/
theorem step_active {s : State} (h : s.Active) :
    step s = match fetchInstr s with
      | .ok i => exec i s
      | .error e => .next (takeFault e s) := by
  cases hf : fetchInstr s <;> rcases h with h | h <;> simp only [step, h, hf]

theorem step_of_fetch {s : State} {i : Instr} (h : s.Active) (hf : fetchInstr s = .ok i) : step s = exec i s := by
  rw [step_active h, hf]

theorem step_of_fetch_error {s : State} {e : Exc} (h : s.Active) (hf : fetchInstr s = .error e) :
    step s = .next (takeFault e s) := by
  rw [step_active h, hf]

/-- What the STEP command returns. -/
theorem returns_iff {s t : State} {r : StepResult} : Returns s t r ↔ step s = .next t ∧ t.result = r := by
  simp only [Returns, hostStep]
  cases step s with
  | next u =>
    simp only [Option.some.injEq, Prod.mk.injEq, Response.result.injEq, Host.Outcome.next.injEq]
    constructor
    · rintro ⟨rfl, h⟩; exact ⟨rfl, h⟩
    · rintro ⟨rfl, h⟩; exact ⟨rfl, h⟩
  | fault e => simp
  | refused e => simp

theorem faultsWith_iff {s : State} {c : Cause} {f : Cell} :
    FaultsWith s c f ↔ step s = .next (s.faultedWith c f) :=
  returns_iff.trans (and_iff_left rfl)

/-- A step in `Halted` or `Faulted`. -/
theorem step_terminal {s : State} (h : ¬ s.Active) : step s = .next s := by
  cases hs : s.status <;> simp_all [step, State.Active]

/-- How the end of an instruction can turn out. -/
theorem finish_cases {s t : State} {r : Except Exc State} (h : finish s r = .next t) :
    r = .ok t ∨ ∃ e, r = .error e ∧ t = takeFault e s := by
  cases r with
  | ok u => simp only [finish, Host.Outcome.next.injEq] at h; exact .inl (by rw [h])
  | error e => simp only [finish, Host.Outcome.next.injEq] at h; exact .inr ⟨e, rfl, h.symm⟩

theorem finish_ok {s t : State} {r : Except Exc State} (h : r = .ok t) : finish s r = .next t := by rw [h]; rfl

theorem finish_error {s : State} {e : Exc} {r : Except Exc State} (h : r = .error e) :
    finish s r = .next (takeFault e s) := by rw [h]; rfl

/-- The fatal conditions of the execute stages: an address out of bounds, or an overflow of this instruction. -/
def ExecExc (i : Instr) (e : Exc) : Prop := (∃ a, e = .outOfBounds a) ∨ e = .arithmeticOverflow i.word

theorem computeStore_error {s : State} {s1 s2 : Src} {d : Cell} {f : Cell → Cell → Except Exc Cell} {e : Exc}
    (h : computeStore s s1 s2 d f = .error e) : (∃ a, e = .outOfBounds a) ∨ ∃ a b, f a b = .error e := by
  simp only [computeStore] at h
  split at h
  · rename_i e' h'
    cases h; exact .inl (resolve2_error h')
  · split at h
    · rename_i e' h'
      cases h; exact .inr ⟨_, _, h'⟩
    · rename_i r hf
      split at h
      · rename_i e' h'
        cases h
        by_cases hd : s.inBounds d
        · rw [memWrite_inBounds r hd] at h'; cases h'
        · rw [memWrite_outOfBounds r hd] at h'; cases h'; exact .inl ⟨_, rfl⟩
      · cases h

theorem exactOrOverflow_error {w : Cell} {r : Int} {e : Exc} (h : exactOrOverflow w r = .error e) :
    e = .arithmeticOverflow w := by
  simp only [exactOrOverflow] at h
  split at h
  · cases h
  · exact (Except.error.inj h).symm

/-- What an instruction that completes as one of the four storing ones does. -/
def StoresAt (i : Instr) (s t : State) : Prop :=
  ∃ d r, i.opcode.writeParam = 3 ∧ i.operands[2]? = some d ∧ s.inBounds d ∧ t = (s.withCell d r).advance 3

/-- Everything `exec` can do. -/
theorem exec_cases {i : Instr} {s t : State} (h : exec i s = .next t) :
    (∃ e, ExecExc i e ∧ t = takeFault e s) ∨
    (∃ d ign, i = .input d ign ∧ s.inq = [] ∧ t = s.block) ∨
    (∃ ign, i = .hlt ign ∧ t = s.halt) ∨
    StoresAt i s t ∨
    (∃ d ign v q, i = .input d ign ∧ s.inq = v :: q ∧ s.inBounds d ∧ t = ((s.withCell d v).withInq q).advance 1) ∨
    (∃ s1 ign a, i = .output s1 ign ∧ resolve s s1 = .ok a ∧ t = (s.pushOut a).advance 1) ∨
    (∃ s1 s2 ign a b, i = .jnz s1 s2 ign ∧ resolve s s1 = .ok a ∧ resolve s s2 = .ok b ∧
      t = if a = 0 then s.advance 2 else s.jumpTo b) ∨
    (∃ s1 s2 ign a b, i = .jz s1 s2 ign ∧ resolve s s1 = .ok a ∧ resolve s s2 = .ok b ∧
      t = if a = 0 then s.jumpTo b else s.advance 2) := by
  have store : ∀ {s1 s2 : Src} {d : Cell} {f : Cell → Cell → Except Exc Cell},
      (∀ a b e, f a b = .error e → e = .arithmeticOverflow i.word) → i.opcode.writeParam = 3 →
      i.operands[2]? = some d → finish s (computeStore s s1 s2 d f) = .next t →
      (∃ e, ExecExc i e ∧ t = takeFault e s) ∨ StoresAt i s t := by
    intro s1 s2 d f hf h3 hd h
    rcases finish_cases h with h | ⟨e, he, rfl⟩
    · obtain ⟨a, b, r, -, -, -, hb, rfl⟩ := computeStore_cases h
      exact .inr ⟨d, r, h3, hd, hb, rfl⟩
    · refine .inl ⟨e, ?_, rfl⟩
      rcases computeStore_error he with h | ⟨a, b, h⟩
      · exact .inl h
      · exact .inr (hf a b e h)
  cases i with
  | add s1 s2 d ign =>
    rcases store (fun a b e he => exactOrOverflow_error he) rfl rfl h with h | h
    · exact .inl h
    · exact .inr (.inr (.inr (.inl h)))
  | mul s1 s2 d ign =>
    rcases store (fun a b e he => exactOrOverflow_error he) rfl rfl h with h | h
    · exact .inl h
    · exact .inr (.inr (.inr (.inl h)))
  | lt s1 s2 d ign =>
    rcases store (fun a b e he => by cases he) rfl rfl h with h | h
    · exact .inl h
    · exact .inr (.inr (.inr (.inl h)))
  | eq s1 s2 d ign =>
    rcases store (fun a b e he => by cases he) rfl rfl h with h | h
    · exact .inl h
    · exact .inr (.inr (.inr (.inl h)))
  | input d ign =>
    simp only [exec, execInput] at h
    split at h
    · rename_i hq
      exact .inr (.inl ⟨d, ign, rfl, hq, (Host.Outcome.next.inj h).symm⟩)
    · rename_i v q hq
      by_cases hd : s.inBounds d
      · rw [memWrite_inBounds v hd] at h
        exact .inr (.inr (.inr (.inr (.inl ⟨d, ign, v, q, rfl, hq, hd, (Host.Outcome.next.inj h).symm⟩))))
      · rw [memWrite_outOfBounds v hd] at h
        exact .inl ⟨_, .inl ⟨d, rfl⟩, (Host.Outcome.next.inj h).symm⟩
  | output s1 ign =>
    simp only [exec, execOutput] at h
    cases hr : resolve s s1 with
    | error e =>
      rw [hr] at h
      obtain ⟨n, -, -, rfl⟩ := resolve_error hr
      exact .inl ⟨_, .inl ⟨n, rfl⟩, (Host.Outcome.next.inj h).symm⟩
    | ok a =>
      rw [hr] at h
      exact .inr (.inr (.inr (.inr (.inr (.inl ⟨s1, ign, a, rfl, hr, (Host.Outcome.next.inj h).symm⟩)))))
  | jnz s1 s2 ign =>
    simp only [exec, execJnz] at h
    rcases finish_cases h with h | ⟨e, he, rfl⟩
    · obtain ⟨a, b, h1, h2, rfl⟩ := condJump_cases h
      refine .inr (.inr (.inr (.inr (.inr (.inr (.inl ⟨s1, s2, ign, a, b, rfl, h1, h2, ?_⟩))))))
      by_cases ha : a = 0 <;> simp [ha]
    · simp only [condJump] at he
      split at he
      · rename_i e' h'
        cases he; exact .inl ⟨_, .inl (resolve2_error h'), rfl⟩
      · cases he
  | jz s1 s2 ign =>
    simp only [exec, execJz] at h
    rcases finish_cases h with h | ⟨e, he, rfl⟩
    · obtain ⟨a, b, h1, h2, rfl⟩ := condJump_cases h
      refine .inr (.inr (.inr (.inr (.inr (.inr (.inr ⟨s1, s2, ign, a, b, rfl, h1, h2, ?_⟩))))))
      by_cases ha : a = 0 <;> simp [ha]
    · simp only [condJump] at he
      split at he
      · rename_i e' h'
        cases he; exact .inl ⟨_, .inl (resolve2_error h'), rfl⟩
      · cases he
  | hlt ign => exact .inr (.inr (.inl ⟨ign, rfl, (Host.Outcome.next.inj h).symm⟩))

/-- The instruction that stands in memory at `ip`, with its operands: what the step of an active instance executes. -/
theorem step_cases {s t : State} (ha : s.Active) (h : step s = .next t) :
    (∃ e, fetchInstr s = .error e ∧ t = takeFault e s) ∨ ∃ i, fetchInstr s = .ok i ∧ exec i s = .next t := by
  rw [step_active ha] at h
  cases hf : fetchInstr s with
  | ok i => rw [hf] at h; exact .inr ⟨i, rfl, h⟩
  | error e => rw [hf] at h; exact .inl ⟨e, rfl, (Host.Outcome.next.inj h).symm⟩

/-- The assembled instruction has the descriptor's opcode. -/
theorem assemble_opcode (d : Desc) (raw : List Cell) : (d.assemble raw).opcode = d.op := by
  cases h : d.op <;> simp [Desc.assemble, h, Instr.opcode]

/-- The opcode of the word at `ip` is that of the instruction fetched. -/
theorem atOpcode_of_fetch {s : State} {i : Instr} (h : fetchInstr s = .ok i) : s.AtOpcode i.opcode := by
  obtain ⟨w, d, raw, hw, hd, -, -, rfl⟩ := fetchInstr_ok.1 h
  obtain ⟨op, hop, hm⟩ := isOpcode_of_decodeWord hd
  have : d.op = op := by
    rcases decodeModes_ok.1 hm with ⟨-, rfl⟩ | ⟨-, m1, -, rfl⟩ | ⟨-, m1, m2, -, -, rfl⟩ <;> rfl
  rw [assemble_opcode, this]
  exact ⟨w, hw, hop⟩

/-! ## The instruction at `ip`, from its cells -/

/-- A read parameter has the value its mode digit and raw operand say. -/
theorem resolve_src {s : State} {w : Cell} {k : Nat} {m : Mode} (h : digit (k + 2) w.toNat = m.num) (raw : Cell) :
    resolve s (m.src raw) = paramValue s w k raw := by
  cases m <;> simp [paramValue, h, Mode.num, Mode.src, resolve]

/-- A parameter value fails only by the raw operand's being out of bounds. -/
theorem paramValue_error {s : State} {w raw : Cell} {k : Nat} {e : Exc} (h : paramValue s w k raw = .error e) :
    e = .outOfBounds raw := by
  simp only [paramValue] at h
  split at h
  · exact (memRead_error.1 h).2
  · cases h

/-- Cells that decode and stand at `ip` are what is fetched. -/
theorem fetchInstr_of_decode {s : State} {i : Instr} {cells : List Cell} (hd : decode cells = .ok (i, []))
    (hc : s.HoldsCells s.ip cells) : fetchInstr s = .ok i := by
  cases cells with
  | nil => cases hd
  | cons w rest =>
    simp only [decode] at hd
    split at hd
    · cases hd
    · rename_i d hw
      split at hd
      · rename_i hn
        have h := Except.ok.inj hd
        have h1 : d.assemble rest = i := congrArg Prod.fst h
        have h2 : rest.drop d.op.nparams = [] := congrArg Prod.snd h
        rw [List.drop_eq_nil_iff] at h2
        exact fetchInstr_ok.2 ⟨w, d, rest, hc.1, hw, hc.2, by omega, h1.symm⟩
      · cases hd

/-- A word of opcode `op` with legal modes and its operand cells: the instruction fetched, and its word. -/
theorem fetchInstr_of_cells {s : State} {w : Cell} {op : Opcode} {raw : List Cell} (hop : IsOpcode w op)
    (hm : ModesLegal w op) (hw : s.Holds s.ip w) (hr : s.HoldsCells (s.ip + 1) raw)
    (hl : raw.length = op.nparams) :
    ∃ d, decodeModes op w.toNat = .ok d ∧ d.op = op ∧ fetchInstr s = .ok (d.assemble raw) ∧
      (d.assemble raw).word = w := by
  obtain ⟨d, hd, rfl⟩ := decodeModes_ok_of_legal hm
  have hd' : decodeWord w = .ok d := by rw [decodeWord_of_isOpcode hop, hd]
  exact ⟨d, hd, rfl, fetchInstr_ok.2 ⟨w, d, raw, hw, hd', hr, hl, rfl⟩, word_of_decodeWord hd' raw⟩

/-- The instruction at `ip` when its opcode has two read parameters. -/
theorem fetchInstr_two_reads {s : State} {w : Cell} {op : Opcode} {raw : List Cell} (hop : IsOpcode w op)
    (h2 : op.nreads = 2) (h3 : digit 3 w.toNat ≤ 1) (h4 : digit 4 w.toNat ≤ 1) (hw : s.Holds s.ip w)
    (hr : s.HoldsCells (s.ip + 1) raw) (hl : raw.length = op.nparams) :
    ∃ m1 m2 ign, digit 3 w.toNat = m1.num ∧ digit 4 w.toNat = m2.num ∧
      fetchInstr s = .ok ((Desc.mk op m1 m2 ign).assemble raw) ∧ ((Desc.mk op m1 m2 ign).assemble raw).word = w := by
  have hm : ModesLegal w op := fun k a b c => by
    obtain ⟨h1, hk⟩ := (op.read_iff k).1 ⟨a, b, c⟩
    have : k = 1 ∨ k = 2 := by omega
    rcases this with rfl | rfl
    · exact h3
    · exact h4
  obtain ⟨d, hd, -, hf, hword⟩ := fetchInstr_of_cells hop hm hw hr hl
  rcases decodeModes_ok.1 hd with ⟨h0, -⟩ | ⟨h0, -⟩ | ⟨-, m1, m2, g1, g2, rfl⟩
  · omega
  · omega
  · exact ⟨m1, m2, _, g1, g2, hf, hword⟩

end Sys2Proof.Machine
end

