-- ==== Sys2Proof/Laws/Fetch.lean ====
section
/-!
SUPPORT. Placing cells and fetching them: what storing a run of cells does to memory, and what a fetch depends on.
-/

namespace Sys2Proof.Machine

/-- Storing cells keeps the canonical form. -/
theorem storeCells_wf {m : Memory} (hm : m.wf) (a : Nat) (cs : List Cell) : (storeCells m a cs).wf := by
  induction cs generalizing m a with
  | nil => exact hm
  | cons c t ih => exact ih (Memory.set_wf hm _ _) _

/-- Storing cells from `a` on leaves the addresses below alone. -/
theorem storeCells_below (m : Memory) (a b : Nat) (cs : List Cell) (h : b < a) :
    (storeCells m a cs).get b = m.get b := by
  induction cs generalizing m a with
  | nil => rfl
  | cons c t ih => simp only [storeCells]; rw [ih _ _ (by omega), Memory.get_set_other _ _ (by omega)]

/-- The stored cells are read back. -/
theorem storeCells_get {m : Memory} (hm : m.wf) (a k : Nat) (cs : List Cell) (h : k < cs.length) :
    (storeCells m a cs).get (a + k) = cs[k] := by
  induction cs generalizing m a k with
  | nil => simp at h
  | cons c t ih =>
    simp only [storeCells]
    cases k with
    | zero => rw [storeCells_below _ _ _ _ (by omega), Nat.add_zero, Memory.get_set_same hm]; rfl
    | succ k => rw [show a + (k + 1) = a + 1 + k by omega, ih (Memory.set_wf hm _ _) _ _ (by simpa using h)]; rfl

theorem holdsCells_of_holds {s : State} {a : Nat} {cs : List Cell}
    (h : ∀ (k : Nat) (hk : k < cs.length), s.Holds (BitVec.ofNat 64 (a + k)) cs[k]) :
    s.HoldsCells (BitVec.ofNat 64 a) cs := by
  induction cs generalizing a with
  | nil => trivial
  | cons c t ih =>
    refine ⟨h 0 (by simp), ?_⟩
    have : (BitVec.ofNat 64 a + 1 : Cell) = BitVec.ofNat 64 (a + 1) := by rw [BitVec.ofNat_add]; rfl
    rw [this]
    exact ih fun k hk => by
      have := h (k + 1) (by simpa using hk)
      rwa [show a + 1 + k = a + (k + 1) by omega]

theorem holdsCells_take {s : State} {a : Cell} {cs : List Cell} (n : Nat) (h : s.HoldsCells a cs) :
    s.HoldsCells a (cs.take n) := by
  induction cs generalizing a n with
  | nil => simpa using h
  | cons c t ih =>
    cases n with
    | zero => trivial
    | succ n => exact ⟨h.1, ih n h.2⟩

/-- Every cell of a run that is held is in bounds. -/
theorem holdsCells_inBounds {s : State} {a : Cell} {cs : List Cell} (h : s.HoldsCells a cs) :
    ∀ k < cs.length, s.inBounds (a + BitVec.ofNat 64 k) := by
  induction cs generalizing a with
  | nil => intro k hk; simp at hk
  | cons c t ih =>
    intro k hk
    cases k with
    | zero => simpa using (memRead_ok.1 h.1).1
    | succ k =>
      have := ih h.2 k (by simpa using hk)
      have e : a + BitVec.ofNat 64 (k + 1) = a + 1 + BitVec.ofNat 64 k := by
        rw [BitVec.add_assoc]; congr 1; apply BitVec.eq_of_toNat_eq; simp [BitVec.toNat_add, Nat.add_comm]
      rw [e]; exact this

theorem holdsCells_congr {s t : State} (hs : t.memSize = s.memSize) (hm : t.mem = s.mem) {a : Cell} {cs : List Cell}
    (h : s.HoldsCells a cs) : t.HoldsCells a cs := by
  induction cs generalizing a with
  | nil => trivial
  | cons c l ih => exact ⟨(memRead_congr hs hm a).trans h.1, ih h.2⟩

theorem readCells_congr {s t : State} (hs : t.memSize = s.memSize) (hm : t.mem = s.mem) (a : Cell) (n : Nat) :
    readCells t a n = readCells s a n := by
  induction n generalizing a with
  | zero => rfl
  | succ n ih => simp only [readCells, memRead_congr hs hm, ih]

/-- What is fetched depends on memory and `ip` alone. -/
theorem fetchInstr_congr {s t : State} (hs : t.memSize = s.memSize) (hm : t.mem = s.mem) (hi : t.ip = s.ip) :
    fetchInstr t = fetchInstr s := by
  simp only [fetchInstr, memRead_congr hs hm, hi, readCells_congr hs hm]

/-- Cells that stand at `ip` and begin with an instruction: it is what is fetched, whatever follows. -/
theorem fetchInstr_of_decode_rest {s : State} {i : Instr} {cells rest : List Cell} (hd : decode cells = .ok (i, rest))
    (hc : s.HoldsCells s.ip cells) : fetchInstr s = .ok i := by
  cases cells with
  | nil => cases hd
  | cons w tl =>
    simp only [decode] at hd
    split at hd
    · cases hd
    · rename_i d hw
      split at hd
      · rename_i hn
        have h1 : d.assemble tl = i := congrArg Prod.fst (Except.ok.inj hd)
        refine fetchInstr_ok.2 ⟨w, d, tl.take d.op.nparams, hc.1, hw, holdsCells_take _ hc.2, by simp; omega, ?_⟩
        rw [← h1]
        obtain ⟨op, m1, m2, ign⟩ := d
        cases op <;> simp only [Opcode.nparams] at hn ⊢ <;> rcases tl with _ | ⟨x, _ | ⟨y, _ | ⟨z, t⟩⟩⟩ <;> rfl
      · cases hd

/-- Where an instruction is placed, it and three cells more fit below the greatest `MEMSIZE`. -/
theorem placeAt_le (s : State) : placeAt s + 4 ≤ 9223372036854775804 := by
  simp only [placeAt]
  split_ifs with hc <;> simp only [Config.maxMemLimit] at * <;> omega

end Sys2Proof.Machine
end

