-- ==== Sys2Proof/Laws/Loader.lean ====
section
/-!
SUPPORT. The loader: what narrowing a program and CONSTRUCT can do, and the pieces of the program text.
-/

namespace Sys2Proof.Machine

theorem toCells_some {vs : List Int} {cs : List Cell} (h : toCells vs = some cs) : cs.map BitVec.toInt = vs := by
  induction vs generalizing cs with
  | nil => cases h; rfl
  | cons v t ih =>
    simp only [toCells] at h
    split at h
    · rename_i c ds h1 h2
      cases h
      simp [narrow?_some.1 h1, ih h2]
    · cases h

theorem toCells_none {vs : List Int} : toCells vs = none ↔ ∃ v ∈ vs, ¬ InCell v := by
  induction vs with
  | nil => simp [toCells]
  | cons v t ih =>
    simp only [toCells, List.mem_cons, exists_eq_or_imp, ← ih]
    by_cases hv : InCell v
    · obtain ⟨c, hc, -⟩ := narrow?_of_inCell hv
      cases ht : toCells t <;> simp [hc, hv]
    · simp [narrow?_of_not_inCell hv, hv]

/-- What CONSTRUCT answers when it is not refused. -/
theorem construct_cases {mm : Config.MaxMem} {src : Source} {cap : Option Int} {t : State}
    (h : construct mm src cap = some t) :
    ∃ vs prog, src.values = some vs ∧ toCells vs = some prog ∧ (prog.length : Int) ≤ cap.getD vs.length ∧
      cap.getD vs.length ≤ mm.val ∧ t = freshState prog (cap.getD vs.length).toNat := by
  simp only [construct] at h
  split at h
  · cases h
  · rename_i vs hv
    split at h
    · cases h
    · rename_i prog hc
      have hl : prog.length = vs.length := by rw [← toCells_some hc]; simp
      rw [hl] at h
      split at h
      · cases h
      · cases h
        exact ⟨vs, prog, hv, hc, by omega, by omega, rfl⟩

theorem parseNat_some {ds : List Char} {n : Nat} :
    parseNat ds = some n ↔ ds ≠ [] ∧ (∀ c ∈ ds, isDig c = true) ∧ n = digitsVal ds := by
  simp only [parseNat, List.all_eq_true]
  split <;> rename_i h
  · simp only [Option.some.injEq]; exact ⟨fun e => ⟨h.1, h.2, e.symm⟩, fun e => e.2.2.symm⟩
  · simp only [reduceCtorEq, false_iff]; exact fun e => h ⟨e.1, e.2.1⟩

theorem isDig_notWs {c : Char} (h : isDig c = true) : isWs c = false := by
  simp only [isDig, Bool.and_eq_true, decide_eq_true_eq] at h
  by_contra hc
  simp only [isWs, Bool.not_eq_false, Bool.or_eq_true, decide_eq_true_eq] at hc
  rcases hc with ((rfl | rfl) | rfl) | rfl <;> revert h <;> decide

/-- White space in front of text that begins with none is dropped. -/
theorem dropWhile_ws_append {l i : List Char} (hl : ∀ c ∈ l, isWs c = true) (hi : i ≠ [])
    (hw : ∀ c ∈ i, isWs c = false) (r : List Char) : (l ++ (i ++ r)).dropWhile isWs = i ++ r := by
  induction l with
  | nil =>
    cases i with
    | nil => exact absurd rfl hi
    | cons a b => simp [hw a (by simp)]
  | cons a b ih =>
    rw [List.cons_append, List.dropWhile_cons_of_pos (hl a (by simp))]
    exact ih fun c hc => hl c (by simp [hc])

theorem splitCommas_noComma {f : List Char} (h : ∀ c ∈ f, c ≠ ',') : splitCommas f = [f] := by
  induction f with
  | nil => rfl
  | cons a b ih => rw [splitCommas, if_neg (h a (by simp)), ih fun c hc => h c (by simp [hc])]

/-- The first field ends at the first comma. -/
theorem splitCommas_comma {f : List Char} (h : ∀ c ∈ f, c ≠ ',') (u : List Char) :
    splitCommas (f ++ ',' :: u) = f :: splitCommas u := by
  induction f with
  | nil => simp [splitCommas]
  | cons a b ih => rw [List.cons_append, splitCommas, if_neg (h a (by simp)), ih fun c hc => h c (by simp [hc])]

/-- A text has no comma, or splits at its first one. -/
theorem comma_cases (t : List Char) :
    (∀ c ∈ t, c ≠ ',') ∨ ∃ f u, t = f ++ ',' :: u ∧ (∀ c ∈ f, c ≠ ',') ∧ u.length < t.length := by
  induction t with
  | nil => left; simp
  | cons a b ih =>
    by_cases ha : a = ','
    · right; exact ⟨[], b, by simp [ha], by simp, by simp⟩
    · rcases ih with h | ⟨f, u, rfl, h, hl⟩
      · left; simpa [ha] using h
      · right; exact ⟨a :: f, u, rfl, by simpa [ha] using h, by simp at hl ⊢; omega⟩

end Sys2Proof.Machine
end

