-- ==== Sys2Proof/Laws/PerInstr.lean ====
section
/-!
SUPPORT. Facts about every instruction as syntax, one lemma per constructor: its word fits a cell exactly when it is
well-formed, and the word decodes to the instruction's descriptor.
-/

namespace Sys2Proof.Laws

/-! ## WordFits -/

/-- The checks of WellFormed.lean say exactly that the instruction word is at most `CELL_MAX`. -/
def WordFits.Statement (i : Instr) : Prop := i.WellFormed = true ↔ i.wordNat ≤ 9223372036854775807

namespace WordFits

theorem two_reads (op : Opcode) (m1 m2 : Mode) (ign : Nat) (h2 : op.nreads = 2) (hop : op.num ≤ 8) :
    ign ≤ 922337203685477 ↔ (Desc.mk op m1 m2 ign).wordNat ≤ 9223372036854775807 := by
  have := m1.num_le; have := m2.num_le
  simp only [Desc.wordNat, h2]
  omega

theorem add (s1 s2 : Src) (d : Cell) (ign : Nat) : Statement (.add s1 s2 d ign) :=
  decide_eq_true_iff.trans (two_reads .add s1.mode s2.mode ign rfl (by decide))

theorem mul (s1 s2 : Src) (d : Cell) (ign : Nat) : Statement (.mul s1 s2 d ign) :=
  decide_eq_true_iff.trans (two_reads .mul s1.mode s2.mode ign rfl (by decide))

theorem input (d : Cell) (ign : Nat) : Statement (.input d ign) := by
  simp only [Statement, Instr.WellFormed, Instr.wordNat, Instr.desc, Desc.wordNat, Opcode.nreads, Opcode.writeParam,
    Opcode.nparams, Opcode.num, decide_eq_true_eq]
  norm_num
  omega

theorem output (s1 : Src) (ign : Nat) : Statement (.output s1 ign) := by
  have := s1.mode.num_le
  simp only [Statement, Instr.WellFormed, Instr.wordNat, Instr.desc, Desc.wordNat, Opcode.nreads, Opcode.writeParam,
    Opcode.nparams, Opcode.num, decide_eq_true_eq]
  norm_num
  omega

theorem jnz (s1 s2 : Src) (ign : Nat) : Statement (.jnz s1 s2 ign) :=
  decide_eq_true_iff.trans (two_reads .jnz s1.mode s2.mode ign rfl (by decide))

theorem jz (s1 s2 : Src) (ign : Nat) : Statement (.jz s1 s2 ign) :=
  decide_eq_true_iff.trans (two_reads .jz s1.mode s2.mode ign rfl (by decide))

theorem lt (s1 s2 : Src) (d : Cell) (ign : Nat) : Statement (.lt s1 s2 d ign) :=
  decide_eq_true_iff.trans (two_reads .lt s1.mode s2.mode ign rfl (by decide))

theorem eq (s1 s2 : Src) (d : Cell) (ign : Nat) : Statement (.eq s1 s2 d ign) :=
  decide_eq_true_iff.trans (two_reads .eq s1.mode s2.mode ign rfl (by decide))

theorem hlt (ign : Nat) : Statement (.hlt ign) := by
  simp only [Statement, Instr.WellFormed, Instr.wordNat, Instr.desc, Desc.wordNat, Opcode.nreads, Opcode.writeParam,
    Opcode.nparams, Opcode.num, decide_eq_true_eq]
  norm_num
  omega

/-- All nine. -/
theorem all (i : Instr) : Statement i := by
  cases i with
  | add s1 s2 d ign => exact add s1 s2 d ign
  | mul s1 s2 d ign => exact mul s1 s2 d ign
  | input d ign => exact input d ign
  | output s1 ign => exact output s1 ign
  | jnz s1 s2 ign => exact jnz s1 s2 ign
  | jz s1 s2 ign => exact jz s1 s2 ign
  | lt s1 s2 d ign => exact lt s1 s2 d ign
  | eq s1 s2 d ign => exact eq s1 s2 d ign
  | hlt ign => exact hlt ign

end WordFits

/-! ## WordDecodes -/

/-- The word of a well-formed instruction decodes to its descriptor: opcode, modes and ignored digits. -/
def WordDecodes.Statement (i : Instr) : Prop := i.WellFormed = true → decodeWord i.word = .ok i.desc

namespace WordDecodes

theorem two_reads (i : Instr) (op : Opcode) (m1 m2 : Mode) (hd : i.desc = ⟨op, m1, m2, i.desc.ign⟩)
    (h2 : op.nreads = 2) : Statement i := by
  intro hi
  have hle := (WordFits.all i).1 hi
  have h1 := m1.num_le; have h2' := m2.num_le; have hop := op.num_lt
  have hn : i.wordNat = op.num + 100 * m1.num + 1000 * m2.num + 10000 * i.desc.ign := by
    rw [Instr.wordNat, hd]; simp only [Desc.wordNat, h2]
  have hw : i.word.toNat = i.wordNat := ofNat_toNat_of_le hle
  have hop' : Machine.IsOpcode i.word op :=
    ⟨by rw [Instr.word, toInt_ofNat_of_le hle]; omega, by rw [hw, hn]; omega⟩
  rw [decodeWord_of_isOpcode hop', hw]
  refine decodeModes_ok.2 (.inr (.inr ⟨h2, m1, m2, ?_, ?_, ?_⟩))
  · rw [digit_three, hn]; omega
  · rw [digit_four, hn]; omega
  · rw [hd]; congr 1; rw [hn]; omega

theorem add (s1 s2 : Src) (d : Cell) (ign : Nat) : Statement (.add s1 s2 d ign) := two_reads _ .add _ _ rfl rfl

theorem mul (s1 s2 : Src) (d : Cell) (ign : Nat) : Statement (.mul s1 s2 d ign) := two_reads _ .mul _ _ rfl rfl

theorem input (d : Cell) (ign : Nat) : Statement (.input d ign) := by
  intro hi
  have hle := (WordFits.all _).1 hi
  have hn : (Instr.input d ign).wordNat = 3 + 100 * ign := rfl
  have hw : (Instr.input d ign).word.toNat = (Instr.input d ign).wordNat := ofNat_toNat_of_le hle
  have hop : Machine.IsOpcode (Instr.input d ign).word .input :=
    ⟨by rw [Instr.word, toInt_ofNat_of_le hle]; omega, by rw [hw, hn]; simp only [Opcode.num]; omega⟩
  rw [decodeWord_of_isOpcode hop, hw]
  refine decodeModes_ok.2 (.inl ⟨rfl, ?_⟩)
  rw [Instr.desc, hn]; congr 1; omega

theorem output (s1 : Src) (ign : Nat) : Statement (.output s1 ign) := by
  intro hi
  have hle := (WordFits.all _).1 hi
  have h1 := s1.mode.num_le
  have hn : (Instr.output s1 ign).wordNat = 4 + 100 * s1.mode.num + 1000 * ign := rfl
  have hw : (Instr.output s1 ign).word.toNat = (Instr.output s1 ign).wordNat := ofNat_toNat_of_le hle
  have hop : Machine.IsOpcode (Instr.output s1 ign).word .output :=
    ⟨by rw [Instr.word, toInt_ofNat_of_le hle]; omega, by rw [hw, hn]; simp only [Opcode.num]; omega⟩
  rw [decodeWord_of_isOpcode hop, hw]
  refine decodeModes_ok.2 (.inr (.inl ⟨rfl, s1.mode, ?_, ?_⟩))
  · rw [digit_three, hn]; omega
  · rw [Instr.desc, hn]; congr 1; omega

theorem jnz (s1 s2 : Src) (ign : Nat) : Statement (.jnz s1 s2 ign) := two_reads _ .jnz _ _ rfl rfl

theorem jz (s1 s2 : Src) (ign : Nat) : Statement (.jz s1 s2 ign) := two_reads _ .jz _ _ rfl rfl

theorem lt (s1 s2 : Src) (d : Cell) (ign : Nat) : Statement (.lt s1 s2 d ign) := two_reads _ .lt _ _ rfl rfl

theorem eq (s1 s2 : Src) (d : Cell) (ign : Nat) : Statement (.eq s1 s2 d ign) := two_reads _ .eq _ _ rfl rfl

theorem hlt (ign : Nat) : Statement (.hlt ign) := by
  intro hi
  have hle := (WordFits.all _).1 hi
  have hn : (Instr.hlt ign).wordNat = 99 + 100 * ign := rfl
  have hw : (Instr.hlt ign).word.toNat = (Instr.hlt ign).wordNat := ofNat_toNat_of_le hle
  have hop : Machine.IsOpcode (Instr.hlt ign).word .hlt :=
    ⟨by rw [Instr.word, toInt_ofNat_of_le hle]; omega, by rw [hw, hn]; simp only [Opcode.num]; omega⟩
  rw [decodeWord_of_isOpcode hop, hw]
  refine decodeModes_ok.2 (.inl ⟨rfl, ?_⟩)
  rw [Instr.desc, hn]; congr 1; omega

end WordDecodes

end Sys2Proof.Laws
end

