-- ==== Sys2Proof/Tests/Slice0.lean ====
section
/-!
SUPPORT. Small tests, their expected results from spec/ (the id of the vector is in the docstring), and for every
statement that has hypotheses a witness: a concrete state and operands that meet all of them.
-/

namespace Sys2Proof.Tests

open Sys2Proof Sys2Proof.Machine

/-- The state the vectors start from: CONSTRUCT of the cells without a capacity, then the input queue. -/
def start (prog inq : List Cell) : State := (freshState prog prog.length).withInq inq

/-- The next state, if that is what a step answers. -/
def nextOf (o : Outcome) : Option State :=
  match o with
  | .next t => some t
  | .fault _ => none
  | .refused _ => none

theorem eq_next {o : Outcome} {t : State} (h : nextOf o = some t) : o = .next t := by
  cases o with
  | next u => exact congrArg _ (Option.some.inj h)
  | fault e => cases h
  | refused e => cases h

/-- The state after one step from `start`. -/
def after (prog inq : List Cell) : Option State := nextOf (step (start prog inq))

/-- What a one-step vector states: status and `ip`. -/
def control (t : State) : Status × Cell := (t.status, t.ip)

/-- The fault record. -/
def record (t : State) : Status × Cause × Cell := (t.status, t.cause, t.finfo)

/-- A `MAXMEM` for the loader's tests. -/
def sampleMax : Config.MaxMem := ⟨8, by decide⟩

/-! ## WellFormed: a term for each check that it refuses -/

theorem test_illFormed_add : (Instr.add (.pos 0) (.pos 0) 0 922337203685478).WellFormed = false := by decide
theorem test_illFormed_mul : (Instr.mul (.imm 0) (.pos 0) 0 922337203685478).WellFormed = false := by decide
theorem test_illFormed_input : (Instr.input 0 92233720368547759).WellFormed = false := by decide
theorem test_illFormed_output : (Instr.output (.pos 0) 9223372036854776).WellFormed = false := by decide
theorem test_illFormed_jnz : (Instr.jnz (.pos 0) (.pos 0) 922337203685478).WellFormed = false := by decide
theorem test_illFormed_jz : (Instr.jz (.pos 0) (.pos 0) 922337203685478).WellFormed = false := by decide
theorem test_illFormed_lt : (Instr.lt (.pos 0) (.pos 0) 0 922337203685478).WellFormed = false := by decide
theorem test_illFormed_eq : (Instr.eq (.pos 0) (.pos 0) 0 922337203685478).WellFormed = false := by decide
theorem test_illFormed_hlt : (Instr.hlt 92233720368547758).WellFormed = false := by decide

/-! ## Decode: a word of every constructor, written out digit by digit from 30_encoding.md R80 -/

/-- DEC1. -/
theorem test_decode_add : decode [1, 5, 6, 7] = .ok (.add (.pos 5) (.pos 6) 7 0, []) := by decide
/-- S1, the source's own example. -/
theorem test_decode_mul : decode [1002, 4, 3, 4] = .ok (.mul (.pos 4) (.imm 3) 4 0, []) := by decide
/-- DEC11: digit 3 of IN is the write digit. -/
theorem test_decode_input : decode [203, 3] = .ok (.input 3 2, []) := by decide
/-- DEC9. -/
theorem test_decode_output : decode [11104, 7] = .ok (.output (.imm 7) 11, []) := by decide
/-- DEC10. -/
theorem test_decode_jnz : decode [10005, 4, 5] = .ok (.jnz (.pos 4) (.pos 5) 1, []) := by decide
/-- JMP10. -/
theorem test_decode_jz : decode [1106, 0, 4] = .ok (.jz (.imm 0) (.imm 4) 0, []) := by decide
/-- CMP7. -/
theorem test_decode_lt : decode [11107, 1, 2, 5] = .ok (.lt (.imm 1) (.imm 2) 5 1, []) := by decide
/-- CMP14. -/
theorem test_decode_eq : decode [108, 5, 5, 5] = .ok (.eq (.imm 5) (.pos 5) 5 0, []) := by decide
/-- DEC8. -/
theorem test_decode_hlt : decode [10099] = .ok (.hlt 100, []) := by decide
/-- DEC12: the word 0. -/
theorem test_decode_zero : decode [0] = .error (.word .unknownOpcode) := by decide
/-- DEC18: -99 is not HLT. -/
theorem test_decode_negative : decode [-99] = .error (.word .unknownOpcode) := by decide
/-- DEC20: a read digit 2. -/
theorem test_decode_badMode : decode [2001, 0, 0, 0] = .error (.word .illegalMode) := by decide
/-- The greatest instruction word ends in the digits 07 and has a mode digit 8, so it is IllegalMode (R80, R92). -/
theorem test_decode_greatest : decodeWord 9223372036854775807 = .error .illegalMode := by decide

/-! ## The words as the opcode table numbers their bits -/

/-- The ADD row, 256 bits, with operands 5, 6, 7 in the later cells. -/
theorem test_tableWord_add :
    decodeTableWord 256 (1 + 5 * 2 ^ 64 + 6 * 2 ^ 128 + 7 * 2 ^ 192) = some (.add (.pos 5) (.pos 6) 7 0) := by decide
/-- The same word without its operand bits: operand cells of zeros. -/
theorem test_tableWord_short : decodeTableWord 64 1 = some (.add (.pos 0) (.pos 0) 0 0) := by decide
theorem test_tableWord_refused : decodeTableWord 64 98 = none := by decide
/-- A placed HLT is the first instruction that runs after reset. -/
theorem test_placed_runs :
    (nextOf (step (State.reset.withFetchWord 64 99))).map control = some (.halted, 0) := by decide

/-! ## One step of each instruction, from 95_test_vectors.md -/

/-- ADD2: reads come before the write. -/
theorem test_add_overwritesItself : (after [1101, -5, 3, 0, 99] []).map (fun t => (control t, t.mem.get 0)) = some ((.running, 4), -2) := by decide
/-- ADD12: overflow is found before the destination check. -/
theorem test_add_overflow : (after [1101, 9223372036854775807, 1, 77, 99] []).map record = some (.faulted, .arithmeticOverflow, 1101) := by decide
/-- MUL11: -2^63 fits. -/
theorem test_mul_least : (after [1102, -4294967296, 2147483648, 0, 99] []).map (fun t => (control t, t.mem.get 0)) = some ((.running, 4), (-9223372036854775808)) := by decide
/-- MUL9. -/
theorem test_mul_overflow : (after [1102, 3037000500, 3037000500, 0, 99] []).map record = some (.faulted, .arithmeticOverflow, 1102) := by decide
/-- IN1. -/
theorem test_input_takesFront : (after [3, 3, 99, 0] [5, 6]).map (fun t => (control t, t.mem.get 3, t.inq)) = some ((.running, 2), 5, [6]) := by decide
/-- IN6: the value is not consumed. -/
theorem test_input_badDestination : (after [3, 50, 99] [1]).map (fun t => (record t, t.inq)) = some ((.faulted, .outOfBounds, 50), [1]) := by decide
/-- OUT3. -/
theorem test_output_itself : (after [4, 0, 99] []).map (fun t => (control t, t.outq)) = some ((.running, 2), [4]) := by decide
/-- OUT4. -/
theorem test_output_badAddress : (after [4, 9, 99] []).map (fun t => (record t, t.outq)) = some ((.faulted, .outOfBounds, 9), []) := by decide
/-- JMP4. -/
theorem test_jnz_uncheckedTarget : (after [1105, 1, -5, 99] []).map control = some (.running, -5) := by decide
/-- JMP8: the position-mode target is read all the same. -/
theorem test_jnz_notTaken_badTarget : (after [5, 4, 50, 99, 0] []).map record = some (.faulted, .outOfBounds, 50) := by decide
/-- JMP10. -/
theorem test_jz_taken : (after [1106, 0, 4, 99, 99] []).map control = some (.running, 4) := by decide
/-- JMP12. -/
theorem test_jz_notTaken : (after [1106, -1, 4, 99, 99] []).map control = some (.running, 3) := by decide
/-- CMP4. -/
theorem test_lt_signed : (after [1107, (-9223372036854775808), 9223372036854775807, 5, 99, -1] []).map (fun t => (control t, t.mem.get 5)) = some ((.running, 4), 1) := by decide
/-- CMP3. -/
theorem test_lt_strict : (after [1107, 3, 3, 5, 99, -1] []).map (fun t => (control t, t.mem.get 5)) = some ((.running, 4), 0) := by decide
/-- CMP12. -/
theorem test_eq_inPlace : (after [8, 5, 5, 5, 99, 4] []).map (fun t => (control t, t.mem.get 5)) = some ((.running, 4), 1) := by decide
/-- CMP11. -/
theorem test_eq_sign : (after [1108, -1, 1, 5, 99, -1] []).map (fun t => (control t, t.mem.get 5)) = some ((.running, 4), 0) := by decide
/-- HLT3: no operand cell is read and `ip` stays. -/
theorem test_hlt_lastCell : (after [199] []).map control = some (.halted, 0) := by decide
/-- HLT2: the queues are untouched. -/
theorem test_hlt_queues : (after [99, 1, 2] [7]).map (fun t => (control t, t.inq)) = some ((.halted, 0), [7]) := by decide

/-! ## CONSTRUCT, from 95_test_vectors.md -/

/-- CON2: a capacity is filled with zeros. -/
theorem test_construct_capacity :
    construct sampleMax (.sequence [1, 2, 3]) (some 6) = some (freshState [1, 2, 3] 6) := by decide
/-- CON4: a capacity less than the program's length. -/
theorem test_construct_small : construct sampleMax (.sequence [1, 2, 3]) (some 2) = none := by decide
/-- CON18: above `MAXMEM`. -/
theorem test_construct_maxMem : construct sampleMax (.sequence []) (some 9) = none := by decide
/-- CON9: white space, a sign and leading zeros. -/
theorem test_text_spaces :
    parseText [' ', '1', ' ', ',', ' ', '-', '2', ' ', ',', '0', '0', '7', ' '] = some [1, -2, 7] := by decide
/-- CON10: a trailing comma. -/
theorem test_text_comma : parseText ['1', ',', '2', ','] = none := by decide
/-- CON12. -/
theorem test_text_plus : parseText ['+', '1'] = none := by decide
/-- CON17. -/
theorem test_text_twoInts : parseText ['1', ' ', '2'] = none := by decide
/-- CON15: outside `Cell`. -/
theorem test_construct_cell : construct sampleMax (.sequence [9223372036854775808]) none = none := by decide
/-- R99: `MUL [4], #3, [4]` and a data cell emit the program of S1. -/
theorem test_emit : emit [.instr (.mul (.pos 4) (.imm 3) 4 0), .data [33]] = [1002, 4, 3, 4, 33] := by decide

/-- The listing of S1, and the line of ADD2 with its signed operand. -/
theorem test_asmText :
    (AsmItem.instr (.mul (.pos 4) (.imm 3) 4 0)).text = "MUL [4], #3, [4]" ∧
      (AsmItem.instr (.add (.imm (-5)) (.imm 3) 0 0)).text = "ADD #-5, #3, [0]" ∧
      (AsmItem.data [30, 40]).text = "DATA 30, 40" := by decide

/-! ## Witnesses: encoding -/

/-- `ModesLegal` as a finite question. -/
theorem modesLegal_iff {w : Cell} {op : Opcode} : ModesLegal w op ↔
    ∀ k < 4, 1 ≤ k → k ≤ op.nparams → k ≠ op.writeParam → digit (k + 2) w.toNat ≤ 1 :=
  ⟨fun h k _ => h k, fun h k a b => h k (by cases op <;> simp only [Opcode.nparams] at b <;> omega) a b⟩

theorem not_modesLegal {w : Cell} {op : Opcode}
    (h : ¬ ∀ k < 4, 1 ≤ k → k ≤ op.nparams → k ≠ op.writeParam → digit (k + 2) w.toNat ≤ 1) : ¬ ModesLegal w op :=
  fun hm => h (modesLegal_iff.1 hm)

/-- At the boundary of the ignored digits. -/
theorem witness_DecodeOfEncodeIsTheInstruction :
    (Instr.add (.pos 5) (.imm (-1)) 7 922337203685477).WellFormed = true ∧
      (Instr.hlt 92233720368547757).WellFormed = true := by decide

theorem witness_EncodeOfDecodeIsTheCells :
    decode [91101, 2, 3, 5, 99] = .ok (.add (.imm 2) (.imm 3) 5 9, [99]) := by decide

theorem witness_DigitsAboveTheFifthAreIgnored : 0 ≤ (100001 : Cell).toInt ∧ 0 ≤ (9223372036854700001 : Cell).toInt := by
  decide

theorem witness_OnlyReadModeDigitsMatter :
    IsOpcode 1101 .add ∧ IsOpcode 91101 .add ∧
      ∀ k, 1 ≤ k → k ≤ Opcode.add.nparams → k ≠ Opcode.add.writeParam →
        digit (k + 2) (1101 : Cell).toNat = digit (k + 2) (91101 : Cell).toNat := by
  refine ⟨by decide, by decide, fun k a b c => ?_⟩
  have hk : k = 1 ∨ k = 2 := by simp only [Opcode.nparams, Opcode.writeParam] at b c; omega
  rcases hk with rfl | rfl <;> decide

/-! ## Witnesses: the step cycle -/

theorem witness_StepRunsTheDecodedInstruction :
    (start [1101, 20, 22, 5, 99, 0] []).Active ∧ decode [1101, 20, 22, 5] = .ok (.add (.imm 20) (.imm 22) 5 0, []) ∧
      (start [1101, 20, 22, 5, 99, 0] []).HoldsCells (start [1101, 20, 22, 5, 99, 0] []).ip [1101, 20, 22, 5] :=
  ⟨by decide, by decide, (holdsCells_of_readCells (n := 4) (by decide)).1⟩

theorem witness_PlacedWordRunsNext :
    State.reset.mem.wf ∧ decodeTableWord 256 (104 + 7 * 2 ^ 64) = some (.output (.imm 7) 0) := by decide

/-- `ip` = MEMSIZE (DEC27), and a negative `ip`. -/
theorem witness_FetchOutsideMemoryFaults :
    (start [] []).Active ∧ ¬ (start [] []).inBounds (start [] []).ip ∧
      ¬ ((start [99] []).jumpTo (-1)).inBounds ((start [99] []).jumpTo (-1)).ip ∧ ((start [99] []).jumpTo (-1)).Active := by
  decide

/-- DEC17 for the first clause, DEC12 and DEC15 for the second. -/
theorem witness_UnknownWordsFault :
    (start [-1] []).Active ∧ (start [-1] []).Holds (start [-1] []).ip (-1) ∧ (-1 : Cell).toInt < 0 ∧
      (start [0] []).Holds (start [0] []).ip 0 ∧ (∀ op : Opcode, (0 : Cell).toNat % 100 ≠ op.num) ∧
      (start [98] []).Holds (start [98] []).ip 98 ∧ (∀ op : Opcode, (98 : Cell).toNat % 100 ≠ op.num) := by
  refine ⟨by decide, by decide, by decide, by decide, fun op => ?_, by decide, fun op => ?_⟩ <;> cases op <;> decide

/-- DEC19 for the first clause; DEC5, whose write digit is 2, for the other two. -/
theorem witness_IllegalModeExactlyOnReadDigits :
    ((start [201, 0, 0, 0, 99] []).Active ∧ (start [201, 0, 0, 0, 99] []).Holds (start [201, 0, 0, 0, 99] []).ip 201 ∧
      IsOpcode 201 .add ∧ ¬ ModesLegal 201 .add) ∧
    ((start [20001, 5, 6, 7, 99, 1, 2, 0] []).Holds (start [20001, 5, 6, 7, 99, 1, 2, 0] []).ip 20001 ∧
      (start [20001, 5, 6, 7, 99, 1, 2, 0] []).Active ∧ IsOpcode 20001 .add ∧ ModesLegal 20001 .add ∧
      (start [20001, 5, 6, 7, 99, 1, 2, 0] []).cause ≠ .illegalMode ∧
      (start [20001, 5, 6, 7, 99, 1, 2, 0] []).HoldsCells ((start [20001, 5, 6, 7, 99, 1, 2, 0] []).ip + 1) [5, 6, 7] ∧
      ([5, 6, 7] : List Cell).length = Opcode.add.nparams) :=
  ⟨⟨by decide, by decide, by decide, not_modesLegal (by decide)⟩, by decide, by decide, by decide,
    modesLegal_iff.2 (by decide), by decide, (holdsCells_of_readCells (n := 3) (by decide)).1, rfl⟩

/-- DEC25: the third operand cell is missing. -/
theorem witness_MissingOperandCellFaults :
    (start [1, 0, 0] []).Active ∧ (start [1, 0, 0] []).Holds (start [1, 0, 0] []).ip 1 ∧ IsOpcode 1 .add ∧
      ModesLegal 1 .add ∧ (start [1, 0, 0] []).HoldsCells ((start [1, 0, 0] []).ip + 1) [0, 0] ∧
      [0, 0].length < Opcode.add.nparams ∧ ¬ (start [1, 0, 0] []).inBounds ((start [1, 0, 0] []).ip + 1 + BitVec.ofNat 64 2) :=
  ⟨by decide, by decide, by decide, modesLegal_iff.2 (by decide), (holdsCells_of_readCells (n := 2) (by decide)).1,
    by decide, by decide⟩

/-- A halted and a faulted state, from HLT3 and DEC13. -/
def haltedState : State := (start [199] []).halt
def faultedState : State := takeFault (.unknownOpcode 9) (start [9, 1, 99] [])

theorem witness_TerminalStepsDoNothing : haltedState.status = .halted ∧ faultedState.status = .faulted := by decide

/-- DEC13 faults, IN2 blocks. -/
theorem witness_StepIsAllOrNothing :
    ((start [9, 1, 99] []).Active ∧ step (start [9, 1, 99] []) = .next faultedState ∧ faultedState.status = .faulted) ∧
    ((start [3, 3, 99, 0] []).Active ∧ step (start [3, 3, 99, 0] []) = .next (start [3, 3, 99, 0] []).block ∧
      (start [3, 3, 99, 0] []).block.status = .blocked) :=
  ⟨⟨by decide, eq_next (by decide), by decide⟩, by decide, eq_next (by decide), by decide⟩

/-- The two clauses of R22 that are about a next state: a fatal condition, and none. -/
theorem witness_IpAfterEachInstruction :
    step (start [9, 1, 99] []) = .next faultedState ∧ faultedState.status = .faulted ∧
      ∃ t, exec (.jz (.imm 0) (.imm (-5)) 0) (start [99] []) = .next t ∧ t.status ≠ .faulted ∧
        exec (.jz (.pos 7) (.imm 0) 0) (start [99] []) = .next ((start [99] []).faultedWith .outOfBounds 7) :=
  ⟨eq_next (by decide), by decide, (start [99] []).jumpTo (-5), eq_next (by decide), by decide, eq_next (by decide)⟩

/-- An instruction that raises and one that does not. -/
theorem witness_StatusAndResultAfterAnInstruction :
    (nextOf (exec (.output (.pos 7) 0) (start [99] []))).map State.result = some (.faulted .outOfBounds 7) ∧
      (nextOf (exec (.input 0 0) (start [99] [5]))).map State.result = some .cont ∧
      (nextOf (exec (.input 0 0) (start [99] []))).map State.result = some .blocked := by decide

/-! ## Witnesses: the instructions, step by step -/

/-- The premises of the statements about ADD, MUL, LT and EQ, at an initial state. -/
def Row3 (op : Opcode) (prog : List Cell) (w r1 r2 d : Cell) : Prop :=
  (start prog []).Active ∧ (start prog []).mem.wf ∧ IsOpcode w op ∧ digit 3 w.toNat ≤ 1 ∧ digit 4 w.toNat ≤ 1 ∧
    (start prog []).HoldsCells (start prog []).ip [w, r1, r2, d]

theorem row3 {op : Opcode} {prog : List Cell} {w r1 r2 d : Cell}
    (h : (start prog []).mem.wf ∧ IsOpcode w op ∧ digit 3 w.toNat ≤ 1 ∧ digit 4 w.toNat ≤ 1 ∧
      readCells (start prog []) 0 4 = .ok [w, r1, r2, d]) : Row3 op prog w r1 r2 d :=
  ⟨.inl rfl, h.1, h.2.1, h.2.2.1, h.2.2.2.1, (holdsCells_of_readCells h.2.2.2.2).1⟩

/-- The premises of the statements about JNZ and JZ. -/
def Row2 (op : Opcode) (prog : List Cell) (w r1 r2 : Cell) : Prop :=
  (start prog []).Active ∧ IsOpcode w op ∧ digit 3 w.toNat ≤ 1 ∧ digit 4 w.toNat ≤ 1 ∧
    (start prog []).HoldsCells (start prog []).ip [w, r1, r2]

theorem row2 {op : Opcode} {prog : List Cell} {w r1 r2 : Cell}
    (h : IsOpcode w op ∧ digit 3 w.toNat ≤ 1 ∧ digit 4 w.toNat ≤ 1 ∧
      readCells (start prog []) 0 3 = .ok [w, r1, r2]) : Row2 op prog w r1 r2 :=
  ⟨.inl rfl, h.1, h.2.1, h.2.2.1, (holdsCells_of_readCells h.2.2.2).1⟩

/-- The premises of the clauses of `CommonStages`: `ip` outside memory (one state for every opcode), and, where the
opcode has a read parameter, an illegal digit, and, where it has a parameter, an operand cell missing. -/
def Early (op : Opcode) (bad w : Cell) : Prop :=
  ((start [] []).Active ∧ ¬ (start [] []).inBounds (start [] []).ip) ∧
  (op.nreads ≠ 0 → (start [bad] []).Active ∧ (start [bad] []).Holds (start [bad] []).ip bad ∧ IsOpcode bad op ∧
    ¬ ModesLegal bad op) ∧
  (op.nparams ≠ 0 → (start [w] []).Active ∧ (start [w] []).Holds (start [w] []).ip w ∧ IsOpcode w op ∧
    ModesLegal w op ∧ (start [w] []).HoldsCells ((start [w] []).ip + 1) [] ∧ ([] : List Cell).length < op.nparams ∧
    ¬ (start [w] []).inBounds ((start [w] []).ip + 1 + BitVec.ofNat 64 0))

theorem early {op : Opcode} {bad w : Cell}
    (h1 : op.nreads ≠ 0 → memRead (start [bad] []) 0 = .ok bad ∧ IsOpcode bad op ∧
      ¬ ∀ k < 4, 1 ≤ k → k ≤ op.nparams → k ≠ op.writeParam → digit (k + 2) bad.toNat ≤ 1)
    (h2 : op.nparams ≠ 0 → memRead (start [w] []) 0 = .ok w ∧ IsOpcode w op ∧
      (∀ k < 4, 1 ≤ k → k ≤ op.nparams → k ≠ op.writeParam → digit (k + 2) w.toNat ≤ 1) ∧
      ¬ (start [w] []).inBounds ((start [w] []).ip + 1 + BitVec.ofNat 64 0)) : Early op bad w :=
  ⟨by decide, fun h => ⟨.inl rfl, (h1 h).1, (h1 h).2.1, not_modesLegal (h1 h).2.2⟩,
    fun h => ⟨.inl rfl, (h2 h).1, (h2 h).2.1, modesLegal_iff.2 (h2 h).2.2.1, trivial, Nat.pos_of_ne_zero h, (h2 h).2.2.2⟩⟩

theorem witness_early_add : Early .add 201 1 := early (by decide) (by decide)
theorem witness_early_mul : Early .mul 2002 2 := early (by decide) (by decide)
theorem witness_early_input : Early .input 3 3 := early (by decide) (by decide)
theorem witness_early_output : Early .output 204 4 := early (by decide) (by decide)
theorem witness_early_jnz : Early .jnz 2105 5 := early (by decide) (by decide)
theorem witness_early_jz : Early .jz 206 6 := early (by decide) (by decide)
theorem witness_early_lt : Early .lt 907 7 := early (by decide) (by decide)
theorem witness_early_eq : Early .eq 9008 8 := early (by decide) (by decide)
theorem witness_early_hlt : Early .hlt 99 99 := early (by decide) (by decide)

/-- The first parameter is at MEMSIZE or past it. -/
theorem witness_AddStep_param1 :
    Row3 .add [1, 9, 0, 0, 99] 1 9 0 0 ∧
      paramValue (start [1, 9, 0, 0, 99] []) 1 1 9 = .error (.outOfBounds 9) :=
  ⟨row3 (by decide), by decide⟩
/-- The second parameter has a negative address. -/
theorem witness_AddStep_param2 :
    Row3 .add [1, 0, -3, 0, 99] 1 0 (-3) 0 ∧
      paramValue (start [1, 0, -3, 0, 99] []) 1 1 0 = .ok 1 ∧
      paramValue (start [1, 0, -3, 0, 99] []) 1 2 (-3) = .error (.outOfBounds (-3)) :=
  ⟨row3 (by decide), by decide, by decide⟩
/-- One past the greatest result. -/
theorem witness_AddStep_overflow :
    Row3 .add [1101, 9223372036854775807, 1, 0, 99] 1101 9223372036854775807 1 0 ∧
      paramValue (start [1101, 9223372036854775807, 1, 0, 99] []) 1101 1 9223372036854775807 = .ok 9223372036854775807 ∧
      paramValue (start [1101, 9223372036854775807, 1, 0, 99] []) 1101 2 1 = .ok 1 ∧
      ¬ InCell ((9223372036854775807 : Cell).toInt + (1 : Cell).toInt) :=
  ⟨row3 (by decide), by decide, by decide, by decide⟩
/-- The destination is MEMSIZE. -/
theorem witness_AddStep_destination :
    Row3 .add [1101, 1, 1, 5, 99] 1101 1 1 5 ∧
      paramValue (start [1101, 1, 1, 5, 99] []) 1101 1 1 = .ok 1 ∧
      paramValue (start [1101, 1, 1, 5, 99] []) 1101 2 1 = .ok 1 ∧
      InCell ((1 : Cell).toInt + (1 : Cell).toInt) ∧
      ¬ (start [1101, 1, 1, 5, 99] []).inBounds 5 :=
  ⟨row3 (by decide), by decide, by decide, by decide, by decide⟩
/-- It completes, at the greatest result. -/
theorem witness_AddStep_completes :
    Row3 .add [1101, 9223372036854775807, 0, 4, 99] 1101 9223372036854775807 0 4 ∧
      paramValue (start [1101, 9223372036854775807, 0, 4, 99] []) 1101 1 9223372036854775807 = .ok 9223372036854775807 ∧
      paramValue (start [1101, 9223372036854775807, 0, 4, 99] []) 1101 2 0 = .ok 0 ∧
      InCell ((9223372036854775807 : Cell).toInt + (0 : Cell).toInt) ∧
      (start [1101, 9223372036854775807, 0, 4, 99] []).inBounds 4 :=
  ⟨row3 (by decide), by decide, by decide, by decide, by decide⟩
/-- The first parameter is at MEMSIZE or past it. -/
theorem witness_MulStep_param1 :
    Row3 .mul [2, 9, 0, 0, 99] 2 9 0 0 ∧
      paramValue (start [2, 9, 0, 0, 99] []) 2 1 9 = .error (.outOfBounds 9) :=
  ⟨row3 (by decide), by decide⟩
/-- The second parameter has a negative address. -/
theorem witness_MulStep_param2 :
    Row3 .mul [2, 0, -3, 0, 99] 2 0 (-3) 0 ∧
      paramValue (start [2, 0, -3, 0, 99] []) 2 1 0 = .ok 2 ∧
      paramValue (start [2, 0, -3, 0, 99] []) 2 2 (-3) = .error (.outOfBounds (-3)) :=
  ⟨row3 (by decide), by decide, by decide⟩
/-- MUL9. -/
theorem witness_MulStep_overflow :
    Row3 .mul [1102, 3037000500, 3037000500, 0, 99] 1102 3037000500 3037000500 0 ∧
      paramValue (start [1102, 3037000500, 3037000500, 0, 99] []) 1102 1 3037000500 = .ok 3037000500 ∧
      paramValue (start [1102, 3037000500, 3037000500, 0, 99] []) 1102 2 3037000500 = .ok 3037000500 ∧
      ¬ InCell ((3037000500 : Cell).toInt * (3037000500 : Cell).toInt) :=
  ⟨row3 (by decide), by decide, by decide, by decide⟩
/-- The destination is MEMSIZE. -/
theorem witness_MulStep_destination :
    Row3 .mul [1102, 1, 1, 5, 99] 1102 1 1 5 ∧
      paramValue (start [1102, 1, 1, 5, 99] []) 1102 1 1 = .ok 1 ∧
      paramValue (start [1102, 1, 1, 5, 99] []) 1102 2 1 = .ok 1 ∧
      InCell ((1 : Cell).toInt * (1 : Cell).toInt) ∧
      ¬ (start [1102, 1, 1, 5, 99] []).inBounds 5 :=
  ⟨row3 (by decide), by decide, by decide, by decide, by decide⟩
/-- It completes, at the least result. -/
theorem witness_MulStep_completes :
    Row3 .mul [1102, -4294967296, 2147483648, 4, 99] 1102 (-4294967296) 2147483648 4 ∧
      paramValue (start [1102, -4294967296, 2147483648, 4, 99] []) 1102 1 (-4294967296) = .ok (-4294967296) ∧
      paramValue (start [1102, -4294967296, 2147483648, 4, 99] []) 1102 2 2147483648 = .ok 2147483648 ∧
      InCell (((-4294967296) : Cell).toInt * (2147483648 : Cell).toInt) ∧
      (start [1102, -4294967296, 2147483648, 4, 99] []).inBounds 4 :=
  ⟨row3 (by decide), by decide, by decide, by decide, by decide⟩
/-- The first parameter is at MEMSIZE or past it. -/
theorem witness_LtStep_param1 :
    Row3 .lt [7, 9, 0, 0, 99] 7 9 0 0 ∧
      paramValue (start [7, 9, 0, 0, 99] []) 7 1 9 = .error (.outOfBounds 9) :=
  ⟨row3 (by decide), by decide⟩
/-- The second parameter has a negative address. -/
theorem witness_LtStep_param2 :
    Row3 .lt [7, 0, -3, 0, 99] 7 0 (-3) 0 ∧
      paramValue (start [7, 0, -3, 0, 99] []) 7 1 0 = .ok 7 ∧
      paramValue (start [7, 0, -3, 0, 99] []) 7 2 (-3) = .error (.outOfBounds (-3)) :=
  ⟨row3 (by decide), by decide, by decide⟩
/-- The destination is MEMSIZE. -/
theorem witness_LtStep_destination :
    Row3 .lt [1107, 1, 1, 5, 99] 1107 1 1 5 ∧
      paramValue (start [1107, 1, 1, 5, 99] []) 1107 1 1 = .ok 1 ∧
      paramValue (start [1107, 1, 1, 5, 99] []) 1107 2 1 = .ok 1 ∧
      ¬ (start [1107, 1, 1, 5, 99] []).inBounds 5 :=
  ⟨row3 (by decide), by decide, by decide, by decide⟩
/-- It completes with the result 1, into the last cell. -/
theorem witness_LtStep_completes :
    Row3 .lt [1107, -1, 0, 4, 99] 1107 (-1) 0 4 ∧
      paramValue (start [1107, -1, 0, 4, 99] []) 1107 1 (-1) = .ok (-1) ∧
      paramValue (start [1107, -1, 0, 4, 99] []) 1107 2 0 = .ok 0 ∧
      ((-1) : Cell).toInt < (0 : Cell).toInt ∧
      (start [1107, -1, 0, 4, 99] []).inBounds 4 :=
  ⟨row3 (by decide), by decide, by decide, by decide, by decide⟩
/-- It completes with the result 0, over its own word. -/
theorem witness_LtStep_zero :
    Row3 .lt [1107, 3, 3, 0, 99] 1107 3 3 0 ∧
      paramValue (start [1107, 3, 3, 0, 99] []) 1107 1 3 = .ok 3 ∧
      paramValue (start [1107, 3, 3, 0, 99] []) 1107 2 3 = .ok 3 ∧
      ¬ (3 : Cell).toInt < (3 : Cell).toInt ∧
      (start [1107, 3, 3, 0, 99] []).inBounds 0 :=
  ⟨row3 (by decide), by decide, by decide, by decide, by decide⟩
/-- The first parameter is at MEMSIZE or past it. -/
theorem witness_EqStep_param1 :
    Row3 .eq [8, 9, 0, 0, 99] 8 9 0 0 ∧
      paramValue (start [8, 9, 0, 0, 99] []) 8 1 9 = .error (.outOfBounds 9) :=
  ⟨row3 (by decide), by decide⟩
/-- The second parameter has a negative address. -/
theorem witness_EqStep_param2 :
    Row3 .eq [8, 0, -3, 0, 99] 8 0 (-3) 0 ∧
      paramValue (start [8, 0, -3, 0, 99] []) 8 1 0 = .ok 8 ∧
      paramValue (start [8, 0, -3, 0, 99] []) 8 2 (-3) = .error (.outOfBounds (-3)) :=
  ⟨row3 (by decide), by decide, by decide⟩
/-- The destination is MEMSIZE. -/
theorem witness_EqStep_destination :
    Row3 .eq [1108, 1, 1, 5, 99] 1108 1 1 5 ∧
      paramValue (start [1108, 1, 1, 5, 99] []) 1108 1 1 = .ok 1 ∧
      paramValue (start [1108, 1, 1, 5, 99] []) 1108 2 1 = .ok 1 ∧
      ¬ (start [1108, 1, 1, 5, 99] []).inBounds 5 :=
  ⟨row3 (by decide), by decide, by decide, by decide⟩
/-- It completes with the result 1, into the last cell. -/
theorem witness_EqStep_completes :
    Row3 .eq [1108, 7, 7, 4, 99] 1108 7 7 4 ∧
      paramValue (start [1108, 7, 7, 4, 99] []) 1108 1 7 = .ok 7 ∧
      paramValue (start [1108, 7, 7, 4, 99] []) 1108 2 7 = .ok 7 ∧
      (7 : Cell).toInt = (7 : Cell).toInt ∧
      (start [1108, 7, 7, 4, 99] []).inBounds 4 :=
  ⟨row3 (by decide), by decide, by decide, by decide, by decide⟩
/-- It completes with the result 0, over its own word. -/
theorem witness_EqStep_zero :
    Row3 .eq [1108, 7, 8, 0, 99] 1108 7 8 0 ∧
      paramValue (start [1108, 7, 8, 0, 99] []) 1108 1 7 = .ok 7 ∧
      paramValue (start [1108, 7, 8, 0, 99] []) 1108 2 8 = .ok 8 ∧
      (7 : Cell).toInt ≠ (8 : Cell).toInt ∧
      (start [1108, 7, 8, 0, 99] []).inBounds 0 :=
  ⟨row3 (by decide), by decide, by decide, by decide, by decide⟩
/-- JMP9. -/
theorem witness_JnzStep_param1 :
    Row2 .jnz [5, 50, 60, 99] 5 50 60 ∧
      paramValue (start [5, 50, 60, 99] []) 5 1 50 = .error (.outOfBounds 50) :=
  ⟨row2 (by decide), by decide⟩
/-- JMP8. -/
theorem witness_JnzStep_param2 :
    Row2 .jnz [5, 4, 50, 99, 0] 5 4 50 ∧
      paramValue (start [5, 4, 50, 99, 0] []) 5 1 4 = .ok 0 ∧
      paramValue (start [5, 4, 50, 99, 0] []) 5 2 50 = .error (.outOfBounds 50) :=
  ⟨row2 (by decide), by decide, by decide⟩
/-- A negative value is not 0; the target is negative. -/
theorem witness_JnzStep_nonzero :
    Row2 .jnz [1105, -1, -5, 99] 1105 (-1) (-5) ∧
      paramValue (start [1105, -1, -5, 99] []) 1105 1 (-1) = .ok (-1) ∧
      paramValue (start [1105, -1, -5, 99] []) 1105 2 (-5) = .ok (-5) ∧
      (-1 : Cell).toInt ≠ 0 :=
  ⟨row2 (by decide), by decide, by decide, by decide⟩
/-- The value 0; the target is MEMSIZE. -/
theorem witness_JnzStep_zero :
    Row2 .jnz [1105, 0, 3] 1105 0 3 ∧
      paramValue (start [1105, 0, 3] []) 1105 1 0 = .ok 0 ∧
      paramValue (start [1105, 0, 3] []) 1105 2 3 = .ok 3 ∧
      (0 : Cell).toInt = 0 :=
  ⟨row2 (by decide), by decide, by decide, by decide⟩
/-- JMP9. -/
theorem witness_JzStep_param1 :
    Row2 .jz [6, 50, 60, 99] 6 50 60 ∧
      paramValue (start [6, 50, 60, 99] []) 6 1 50 = .error (.outOfBounds 50) :=
  ⟨row2 (by decide), by decide⟩
/-- JMP8. -/
theorem witness_JzStep_param2 :
    Row2 .jz [6, 4, 50, 99, 0] 6 4 50 ∧
      paramValue (start [6, 4, 50, 99, 0] []) 6 1 4 = .ok 0 ∧
      paramValue (start [6, 4, 50, 99, 0] []) 6 2 50 = .error (.outOfBounds 50) :=
  ⟨row2 (by decide), by decide, by decide⟩
/-- A negative value is not 0; the target is negative. -/
theorem witness_JzStep_nonzero :
    Row2 .jz [1106, -1, -5, 99] 1106 (-1) (-5) ∧
      paramValue (start [1106, -1, -5, 99] []) 1106 1 (-1) = .ok (-1) ∧
      paramValue (start [1106, -1, -5, 99] []) 1106 2 (-5) = .ok (-5) ∧
      (-1 : Cell).toInt ≠ 0 :=
  ⟨row2 (by decide), by decide, by decide, by decide⟩
/-- The value 0; the target is MEMSIZE. -/
theorem witness_JzStep_zero :
    Row2 .jz [1106, 0, 3] 1106 0 3 ∧
      paramValue (start [1106, 0, 3] []) 1106 1 0 = .ok 0 ∧
      paramValue (start [1106, 0, 3] []) 1106 2 3 = .ok 3 ∧
      (0 : Cell).toInt = 0 :=
  ⟨row2 (by decide), by decide, by decide, by decide⟩

/-- IN5: blocked; IN6: a value and a bad destination; IN4: a value, into its own word. -/
theorem witness_InStep :
    ((start [3, 50, 99] []).Active ∧ (start [3, 50, 99] []).mem.wf ∧ IsOpcode 3 .input ∧
      (start [3, 50, 99] []).HoldsCells (start [3, 50, 99] []).ip [3, 50] ∧ (start [3, 50, 99] []).inq = []) ∧
    ((start [3, 50, 99] [1]).Active ∧ (start [3, 50, 99] [1]).mem.wf ∧
      (start [3, 50, 99] [1]).HoldsCells (start [3, 50, 99] [1]).ip [3, 50] ∧ (start [3, 50, 99] [1]).inq ≠ [] ∧
      ¬ (start [3, 50, 99] [1]).inBounds 50) ∧
    ((start [3, 0, 99] [99]).Active ∧ (start [3, 0, 99] [99]).mem.wf ∧
      (start [3, 0, 99] [99]).HoldsCells (start [3, 0, 99] [99]).ip [3, 0] ∧ (start [3, 0, 99] [99]).inq = [99] ∧
      (start [3, 0, 99] [99]).inBounds 0) :=
  ⟨⟨by decide, by decide, by decide, (holdsCells_of_readCells (n := 2) (by decide)).1, rfl⟩,
    ⟨by decide, by decide, (holdsCells_of_readCells (n := 2) (by decide)).1, by decide, by decide⟩,
    by decide, by decide, (holdsCells_of_readCells (n := 2) (by decide)).1, rfl, by decide⟩

/-- OUT4 and OUT5. -/
theorem witness_OutStep :
    ((start [4, 9, 99] []).Active ∧ IsOpcode 4 .output ∧ digit 3 (4 : Cell).toNat ≤ 1 ∧
      (start [4, 9, 99] []).HoldsCells (start [4, 9, 99] []).ip [4, 9] ∧
      paramValue (start [4, 9, 99] []) 4 1 9 = .error (.outOfBounds 9)) ∧
    ((start [104, 9223372036854775807, 99] []).Active ∧ IsOpcode 104 .output ∧ digit 3 (104 : Cell).toNat ≤ 1 ∧
      (start [104, 9223372036854775807, 99] []).HoldsCells (start [104, 9223372036854775807, 99] []).ip
        [104, 9223372036854775807] ∧
      paramValue (start [104, 9223372036854775807, 99] []) 104 1 9223372036854775807 = .ok 9223372036854775807) :=
  ⟨⟨by decide, by decide, by decide, (holdsCells_of_readCells (n := 2) (by decide)).1, by decide⟩,
    by decide, by decide, by decide, (holdsCells_of_readCells (n := 2) (by decide)).1, by decide⟩

/-- HLT3, in the last cell of memory. -/
theorem witness_HltStep :
    (start [199] []).Active ∧ (start [199] []).Holds (start [199] []).ip 199 ∧ IsOpcode 199 .hlt := by decide

/-! ## Witnesses: completion -/

theorem witness_ArithmeticCompletes :
    (start [9, 1, 99] []).mem.wf ∧ resolve (start [9, 1, 99] []) (.pos 0) = .ok 9 ∧
      resolve (start [9, 1, 99] []) (.imm (-9)) = .ok (-9) ∧ (start [9, 1, 99] []).inBounds 2 ∧
      InCell ((9 : Cell).toInt + (-9 : Cell).toInt) ∧ InCell ((9 : Cell).toInt * (-9 : Cell).toInt) := by decide

theorem witness_CompareCompletes :
    (start [9, 1, 99] []).mem.wf ∧ resolve (start [9, 1, 99] []) (.pos 0) = .ok 9 ∧
      resolve (start [9, 1, 99] []) (.imm (-9)) = .ok (-9) ∧ (start [9, 1, 99] []).inBounds 0 := by decide

theorem witness_InputCompletes :
    (start [3, 0, 99] [72]).mem.wf ∧ (start [3, 0, 99] [72]).inq = 72 :: [] ∧ (start [3, 0, 99] [72]).inBounds 2 := by
  decide

theorem witness_OutputAndJumpsComplete :
    resolve (start [9, 1, 99] []) (.pos 2) = .ok 99 ∧ resolve (start [9, 1, 99] []) (.imm 0) = .ok 0 := by decide

/-- In range at both ends, and out of range on both sides. -/
theorem witness_ReadParameterValue :
    (start [9, 1, 99] []).inBounds 0 ∧ (start [9, 1, 99] []).inBounds 2 ∧ ¬ (start [9, 1, 99] []).inBounds 3 ∧
      ¬ (start [9, 1, 99] []).inBounds (-1) := by decide

theorem witness_BadOperandAddressFaults :
    ¬ (start [9, 1, 99] []).inBounds 3 ∧ resolve (start [9, 1, 99] []) (.pos 0) = .ok 9 := by decide

/-! ## Witnesses: whole-machine rules and the invariant -/

/-- What a CONSTRUCT of these cells leaves meets the invariant. -/
theorem inv_start {mm : Config.MaxMem} {prog : List Cell} (h : prog.length ≤ mm.val) : Inv mm (start prog []) where
  mem_wf := Memory.ofCells_wf _ _
  mem_bound := fun p hp => by have := Memory.ofCells_bound hp; simp only [start, freshState, State.withInq]; omega
  size_bound := h
  cause_none := by simp [start, freshState, State.withInq]
  finfo_zero := fun _ => rfl

/-- Three operand cells that are the last of memory. -/
theorem witness_IpNeverWraps :
    Inv sampleMax (start [1101, 1, 1, 0] []) ∧ (start [1101, 1, 1, 0] []).Holds (start [1101, 1, 1, 0] []).ip 1101 ∧
      IsOpcode 1101 .add ∧ (start [1101, 1, 1, 0] []).HoldsCells ((start [1101, 1, 1, 0] []).ip + 1) [1, 1, 0] ∧
      ([1, 1, 0] : List Cell).length = Opcode.add.nparams :=
  ⟨inv_start (by decide), by decide, by decide, (holdsCells_of_readCells (n := 3) (by decide)).1, rfl⟩

/-- ADD5 writes a cell. -/
theorem witness_OnlyTheDestinationCellChanges :
    ∃ t, step (start [1101, 50, 49, 4, 0] []) = .next t ∧ memRead t 4 ≠ memRead (start [1101, 50, 49, 4, 0] []) 4 :=
  ⟨_, eq_next (t := ((start [1101, 50, 49, 4, 0] []).withCell 4 99).advance 3) (by decide), by decide⟩

/-- IN1 and OUT1. -/
theorem witness_QueuesMoveOnlyByInAndOut :
    (∃ t, step (start [3, 3, 99, 0] [5, 6]) = .next t ∧ t.inq ≠ (start [3, 3, 99, 0] [5, 6]).inq) ∧
    (∃ t, step (start [4, 3, 99, 55] []) = .next t ∧ t.outq ≠ (start [4, 3, 99, 55] []).outq) :=
  ⟨⟨_, eq_next (t := (((start [3, 3, 99, 0] [5, 6]).withCell 3 5).withInq [6]).advance 1) (by decide), by decide⟩,
    _, eq_next (t := ((start [4, 3, 99, 55] []).pushOut 55).advance 1) (by decide), by decide⟩

/-- IN2 and HLT1. -/
theorem witness_OnlyInBlocksAndOnlyHltHalts :
    ((start [3, 3, 99, 0] []).Active ∧ step (start [3, 3, 99, 0] []) = .next (start [3, 3, 99, 0] []).block ∧
      (start [3, 3, 99, 0] []).block.status = .blocked) ∧
    ((start [199] []).Active ∧ step (start [199] []) = .next haltedState ∧ haltedState.status = .halted) :=
  ⟨⟨by decide, eq_next (by decide), rfl⟩, by decide, eq_next (by decide), rfl⟩

/-- IN2, S7. -/
theorem witness_BlockingIsIdempotent :
    (start [3, 3, 99, 0] []).Active ∧ step (start [3, 3, 99, 0] []) = .next (start [3, 3, 99, 0] []).block ∧
      (start [3, 3, 99, 0] []).block.status = .blocked :=
  ⟨by decide, eq_next (by decide), rfl⟩

/-- S7. -/
theorem witness_PushedValueCompletesTheBlockedIn :
    (start [3, 3, 99, 0] []).Active ∧ (start [3, 3, 99, 0] []).mem.wf ∧
      (start [3, 3, 99, 0] []).HoldsCells (start [3, 3, 99, 0] []).ip [3, 3] ∧ (start [3, 3, 99, 0] []).inBounds 3 ∧
      step (start [3, 3, 99, 0] []) = .next (start [3, 3, 99, 0] []).block ∧
      (start [3, 3, 99, 0] []).block.status = .blocked :=
  ⟨by decide, by decide, (holdsCells_of_readCells (n := 2) (by decide)).1, by decide, eq_next (by decide), rfl⟩

theorem witness_HaltIsTerminal : haltedState.status = .halted := rfl

theorem witness_StepKeepsTheInvariant :
    Inv sampleMax (start [1101, 50, 49, 4, 0] []) ∧ ∃ t, step (start [1101, 50, 49, 4, 0] []) = .next t :=
  ⟨inv_start (by decide), _, eq_next (t := ((start [1101, 50, 49, 4, 0] []).withCell 4 99).advance 3) (by decide)⟩

theorem witness_CommandsKeepTheInvariant :
    Inv sampleMax (start [9, 1, 99] []) ∧
      perform sampleMax 0 (.construct (.sequence [99]) none) (start [9, 1, 99] []) = some (freshState [99] 1, .ack) ∧
      perform sampleMax 0 (.setMem 2 7) (start [9, 1, 99] []) = some ((start [9, 1, 99] []).withCell 2 7, .ack) :=
  ⟨inv_start (by decide), by decide, by decide⟩

theorem witness_MemoryReadAndWrite :
    (start [9, 1, 99] []).mem.wf ∧ (start [9, 1, 99] []).inBounds 2 ∧ ¬ (start [9, 1, 99] []).inBounds 3 ∧
      ¬ (start [9, 1, 99] []).inBounds (-1) := by decide

/-! ## Witnesses: the host interface -/

/-- CON2, at a capacity that is MAXMEM, and CON1. -/
theorem witness_ConstructedState :
    construct sampleMax (.sequence [1, 2, 3]) (some 8) = some (freshState [1, 2, 3] 8) ∧
      construct sampleMax (.sequence [1, 2, 3]) none = some (freshState [1, 2, 3] 3) := by decide

/-- A refusal for each of the four reasons. -/
theorem witness_ConstructIsRefusedExactlyWhen :
    construct sampleMax (.text ['1', ',']) none = none ∧
      construct sampleMax (.sequence [-9223372036854775809]) none = none ∧
      construct sampleMax (.sequence [1, 2, 3]) (some 2) = none ∧
      construct sampleMax (.sequence [1, 2, 3]) (some 9) = none := by decide

/-- A text and its integers, on the side of the loader. -/
theorem witness_ProgramTextIsTheGrammar : parseText ['3', ',', '0', '\n'] = some [3, 0] := by decide

theorem witness_GetMemCommand :
    haltedState.status ≠ .faulted ∧ haltedState.inBounds 0 ∧ ¬ haltedState.inBounds 1 ∧ ¬ haltedState.inBounds (-1) := by
  decide

theorem witness_SetMemCommand :
    haltedState.status ≠ .faulted ∧ haltedState.mem.wf ∧ haltedState.inBounds 0 ∧ ¬ haltedState.inBounds 1 := by decide

theorem witness_QueuesAreFifo :
    haltedState.status ≠ .faulted ∧ (haltedState.withOutq [7, 8]).status ≠ .faulted ∧
      (haltedState.withOutq [7, 8]).outq = 7 :: [8] ∧ haltedState.outq = [] := by decide

/-- A command that keeps the registers, and one whose address is bad. -/
theorem witness_HostCannotTouchTheRegisters :
    perform sampleMax 0 (.inPush 7) haltedState = some (haltedState.pushIn 7, .ack) ∧
      perform sampleMax 0 (.getMem 1) haltedState =
        some (haltedState.faultedWith .outOfBounds 1, .result (.faulted .outOfBounds 1)) ∧
      (∀ src cap, Command.inPush 7 ≠ .construct src cap) ∧ Command.inPush 7 ≠ .step ∧ Command.inPush 7 ≠ .run ∧
      (∀ src cap, Command.getMem 1 ≠ .construct src cap) ∧ Command.getMem 1 ≠ .step ∧ Command.getMem 1 ≠ .run :=
  ⟨by decide, by decide, fun _ _ h => (nomatch h), by decide, by decide, fun _ _ h => (nomatch h), by decide, by decide⟩

theorem witness_FaultedIsAbsorbing :
    faultedState.status = .faulted ∧ (∀ src cap, Command.outPop ≠ .construct src cap) ∧ Command.outPop ≠ .run ∧
      perform sampleMax 0 .outPop faultedState = some (faultedState, .noValue) :=
  ⟨rfl, fun _ _ h => (nomatch h), by decide, by decide⟩

theorem witness_HaltedCannotBeRestarted :
    haltedState.status = .halted ∧ (∀ src cap, Command.setMem 0 1 ≠ .construct src cap) ∧
      perform sampleMax 0 (.setMem 0 1) haltedState = some (haltedState.withCell 0 1, .ack) :=
  ⟨rfl, fun _ _ h => (nomatch h), by decide⟩

/-- A RUN of one HLT returns after one step, whatever the fuel; the second side is a run of no step before it. -/
theorem witness_RunHasOneOutcome :
    RunReturns (start [199] []) haltedState .halted ∧ runFor 3 (start [199] []) = some (haltedState, .halted) :=
  ⟨⟨1, by decide⟩, by decide⟩

/-- Two instances. -/
def twoSlots : System := ⟨[some ((start [99] []).pushOut 5), some (start [3, 0, 99] [])]⟩

theorem witness_InstancesShareNothing :
    twoSlots.perform sampleMax 0 0 .outPop = some (⟨[some (start [99] []), some (start [3, 0, 99] [])]⟩, .value 5) ∧
      (1 : Nat) ≠ 0 := by decide

theorem witness_InstancesDoNotLeak :
    twoSlots.slots[0]? = (System.mk [some ((start [99] []).pushOut 5), none]).slots[0]? ∧
      twoSlots.perform sampleMax 0 0 .outPop =
        some (⟨[some (start [99] []), some (start [3, 0, 99] [])]⟩, .value 5) := by decide

theorem witness_HandOffMovesOneValue :
    (0 : Nat) ≠ 1 ∧ twoSlots.slots[0]? = some (some ((start [99] []).pushOut 5)) ∧
      twoSlots.slots[1]? = some (some (start [3, 0, 99] [])) ∧ ((start [99] []).pushOut 5).status ≠ .faulted ∧
      (start [3, 0, 99] []).status ≠ .faulted ∧ ((start [99] []).pushOut 5).outq = 5 :: [] := by decide

end Sys2Proof.Tests
end

section
/-!
PROOFS. How a step moves `ip` (10_state.md section 2, R22): `exec` always answers a next state, and a next state that is
Faulted is a fault entry, which leaves `ip` on the instruction.
-/

namespace Sys2Proof.Machine

theorem finish_next (s : State) (r : Except Exc State) : ∃ t, finish s r = .next t := by
  cases r with
  | ok t => exact ⟨t, rfl⟩
  | error e => exact ⟨takeFault e s, rfl⟩

/-- Every instruction has a meaning at every state. -/
theorem exec_next (i : Instr) (s : State) : ∃ t, exec i s = .next t := by
  cases i with
  | add | mul | lt | eq | jnz | jz | output => exact finish_next s _
  | hlt => exact ⟨s.halt, rfl⟩
  | input d ign =>
    simp only [exec, execInput]
    cases s.inq with
    | nil => exact ⟨s.block, rfl⟩
    | cons v rest => exact finish_next s _

/-- The only way `exec` ends Faulted is a fault entry: every other end of an instruction writes another status. -/
theorem exec_faulted {i : Instr} {s t : State} (h : exec i s = .next t) (hf : t.status = .faulted) :
    ∃ e, ExecExc i e ∧ t = takeFault e s := by
  rcases exec_cases h with he | ⟨_, _, -, -, rfl⟩ | ⟨_, -, rfl⟩ | ⟨_, _, -, -, -, rfl⟩ | ⟨_, _, _, _, -, -, -, rfl⟩ |
    ⟨_, _, _, -, -, rfl⟩ | ⟨_, _, _, _, _, -, -, -, rfl⟩ | ⟨_, _, _, _, _, -, -, -, rfl⟩
  · exact he
  · simp at hf
  · simp at hf
  · simp at hf
  · simp at hf
  · simp at hf
  · split at hf <;> simp at hf
  · split at hf <;> simp at hf

theorem exec_ip_of_faulted {i : Instr} {s t : State} (h : exec i s = .next t) (hf : t.status = .faulted) :
    t.ip = s.ip := by
  obtain ⟨e, -, rfl⟩ := exec_faulted h hf
  exact takeFault_ip e s

theorem step_ip_of_faulted {s t : State} (h : step s = .next t) (hf : t.status = .faulted) : t.ip = s.ip := by
  by_cases ha : s.Active
  · rcases step_cases ha h with ⟨e, -, rfl⟩ | ⟨i, -, hi⟩
    · exact takeFault_ip e s
    · exact exec_ip_of_faulted hi hf
  · rw [step_terminal ha] at h
    cases h
    rfl

/-- Settles O33, by the cases of `exec_cases`: the first is the fault entry, each other one fixes how `ip` moves. -/
theorem ipAfterEachInstruction : Obligations.IpAfterEachInstruction := by
  refine ⟨fun _ _ => step_ip_of_faulted, fun i s => ?_⟩
  obtain ⟨t, ht⟩ := exec_next i s
  refine ⟨t, ht, exec_ip_of_faulted ht, fun hs => ?_⟩
  rcases exec_cases ht with ⟨e, -, rfl⟩ | ⟨d, ign, rfl, hq, rfl⟩ | ⟨ign, rfl, rfl⟩ | ⟨d, r, hw, -, -, rfl⟩ |
    ⟨d, ign, v, q, rfl, hq, -, rfl⟩ | ⟨s1, ign, a, rfl, -, rfl⟩ | ⟨s1, s2, ign, a, b, rfl, h1, h2, rfl⟩ |
    ⟨s1, s2, ign, a, b, rfl, h1, h2, rfl⟩
  · exact absurd (takeFault_status e s) hs
  · simp [hq]
  · exact State.halt_ip s
  · cases i with
    | add | mul | lt | eq => exact State.advance_ip 3 (s.withCell d r)
    | input | output | jnz | jz | hlt => simp [Instr.opcode, Opcode.writeParam] at hw
  · simp [hq]
  · simp
  · refine ⟨a, b, h1, h2, ?_⟩
    split <;> simp
  · refine ⟨a, b, h1, h2, ?_⟩
    split <;> simp

end Sys2Proof.Machine
end

section
/-!
PROOFS. The two access primitives (20_memory.md R50, R51), in range and out of range.
-/

namespace Sys2Proof.Machine

/-- In range a write changes the one cell and nothing else. -/
theorem memWrite_changes_only_cell {s : State} {a : Cell} (v : Cell) (hm : s.mem.wf) (ha : s.inBounds a) :
    ∃ t, memWrite s a v = .ok t ∧ t.Holds a v ∧ MemSameBut a s t ∧ RestSame s t ∧ t.ip = s.ip ∧
      t.status = s.status :=
  ⟨s.withCell a v, memWrite_inBounds v ha, withCell_holds hm ha rfl rfl, withCell_memSameBut ha rfl rfl,
    ⟨rfl, rfl, rfl, rfl⟩, rfl, rfl⟩

/-- Settles O45, by whether the address is in range. -/
theorem memoryReadAndWrite : Obligations.MemoryReadAndWrite := fun _ _ v hm =>
  ⟨fun ha => ⟨memRead_inBounds ha, memWrite_changes_only_cell v hm ha⟩,
    fun ha => ⟨memRead_outOfBounds ha, memWrite_outOfBounds v ha⟩⟩

end Sys2Proof.Machine
end

section
/-!
PROOFS. What a word means without its ignored digits (30_encoding.md R94): the two low digits and the mode digits of the
read parameters decide it.
-/

namespace Sys2Proof.Machine

theorem nreads_le_two (op : Opcode) : op.nreads ≤ 2 := by cases op <;> decide

theorem wordMeaning_eq_map (w : Cell) : wordMeaning w = (decodeWord w).map Desc.meaning := by
  unfold wordMeaning
  cases decodeWord w <;> rfl

/-- The mode stage looks at the mode digits of the read parameters alone. -/
theorem decodeModes_meaning_congr {op : Opcode} {n m : Nat}
    (h : ∀ k, 1 ≤ k → k ≤ op.nreads → digit (k + 2) n = digit (k + 2) m) :
    (decodeModes op n).map Desc.meaning = (decodeModes op m).map Desc.meaning := by
  have hk : ∀ k, 1 ≤ k → k ≤ op.nreads → readMode? n k = readMode? m k := fun k h1 h2 => by
    simp only [readMode?, h k h1 h2]
  have hr : op.nreads = 0 ∨ op.nreads = 1 ∨ op.nreads = 2 := by
    have := nreads_le_two op
    omega
  rcases hr with hr | hr | hr <;> simp only [decodeModes, hr]
  · rfl
  · rw [hk 1 (by omega) (by omega)]
    cases readMode? m 1 <;> rfl
  · rw [hk 1 (by omega) (by omega), hk 2 (by omega) (by omega)]
    cases readMode? m 1 <;> cases readMode? m 2 <;> rfl

/-- Two words of one opcode with the same read mode digits mean the same. -/
theorem wordMeaning_congr {w v : Cell} {op : Opcode} (hw : IsOpcode w op) (hv : IsOpcode v op)
    (h : ∀ k, 1 ≤ k → k ≤ op.nreads → digit (k + 2) w.toNat = digit (k + 2) v.toNat) :
    wordMeaning w = wordMeaning v := by
  rw [wordMeaning_eq_map, wordMeaning_eq_map, decodeWord_of_isOpcode hw, decodeWord_of_isOpcode hv]
  exact decodeModes_meaning_congr h

/-- The mode digits of read parameters, the third and the fourth, are among the five that the remainder keeps. -/
theorem digit_mod_100000 {k : Nat} (n : Nat) (h1 : 1 ≤ k) (h2 : k ≤ 2) :
    digit (k + 2) (n % 100000) = digit (k + 2) n := by
  have hk : k = 1 ∨ k = 2 := by omega
  rcases hk with rfl | rfl
  · simp only [Nat.reduceAdd, digit_three]
    omega
  · simp only [Nat.reduceAdd, digit_four]
    omega

/-- Settles O5: the remainder has the same two low digits, so no opcode or the same one, and the same mode digits. -/
theorem digitsAboveTheFifthAreIgnored : Obligations.DigitsAboveTheFifthAreIgnored := by
  intro w hw
  have hle : w.toNat % 100000 ≤ 9223372036854775807 := by omega
  have hn := ofNat_toNat_of_le hle
  have hlow : (BitVec.ofNat 64 (w.toNat % 100000)).toNat % 100 = w.toNat % 100 := by omega
  by_cases hop : ∃ op : Opcode, w.toNat % 100 = op.num
  · obtain ⟨op, hop⟩ := hop
    refine wordMeaning_congr ⟨hw, hop⟩ ⟨?_, hlow.trans hop⟩ fun k h1 h2 => ?_
    · rw [toInt_ofNat_of_le hle]
      omega
    · rw [hn, digit_mod_100000 _ h1 (h2.trans (nreads_le_two op))]
  · have hno : ∀ op : Opcode, w.toNat % 100 ≠ op.num := fun op h => hop ⟨op, h⟩
    rw [wordMeaning_eq_map, wordMeaning_eq_map, decodeWord_unknown hno,
      decodeWord_unknown fun op => hlow ▸ hno op]

end Sys2Proof.Machine
end

section
/-!
PROOFS. The decode faults of a step (30_encoding.md R90 to R92; 40_step_cycle.md R112, R113): a word that does not decode
faults with the word, and a step raises IllegalMode in no other way.
-/

namespace Sys2Proof.Machine

/-- A word that does not decode is the fault of the fetch. -/
theorem fetchInstr_of_decodeWord_error {s : State} {w : Cell} {x : WordError} (hw : s.Holds s.ip w)
    (hx : decodeWord w = .error x) : fetchInstr s = .error (wordExc w x) := by
  have hw' : memRead s s.ip = .ok w := hw
  simp only [fetchInstr, hw', hx]

/-- A step whose word does not decode is the entry of that fault. -/
theorem step_of_decodeWord_error {s : State} {w : Cell} {x : WordError} (ha : s.Active) (hw : s.Holds s.ip w)
    (hx : decodeWord w = .error x) : step s = .next (takeFault (wordExc w x) s) :=
  step_of_fetch_error ha (fetchInstr_of_decodeWord_error hw hx)

/-- Settles O10: both kinds of word fail to decode with UnknownOpcode. -/
theorem unknownWordsFault : Obligations.UnknownWordsFault := by
  intro s w ha hw h
  have hx : decodeWord w = .error .unknownOpcode := by
    rcases h with hneg | hno
    · exact decodeWord_negative hneg
    · exact decodeWord_unknown hno
  exact step_of_decodeWord_error ha hw hx

/-- When the word at `ip` decodes, the fetch fails only by an operand cell out of range. -/
theorem fetchInstr_error_of_decodeWord {s : State} {w : Cell} {d : Desc} {e : Exc} (hw : s.Holds s.ip w)
    (hd : decodeWord w = .ok d) (h : fetchInstr s = .error e) : ∃ a, e = .outOfBounds a := by
  have hw' : memRead s s.ip = .ok w := hw
  simp only [fetchInstr, hw', hd] at h
  cases hr : readCells s (s.ip + 1) d.op.nparams with
  | ok raw => rw [hr] at h; cases h
  | error e' =>
    rw [hr] at h
    cases h
    exact readCells_error_kind hr

theorem execExc_cause_ne_illegalMode {i : Instr} {e : Exc} (h : ExecExc i e) : e.cause ≠ .illegalMode := by
  rcases h with ⟨a, rfl⟩ | rfl <;> simp [Exc.cause]

/-- `exec` writes the cause register only by a fatal condition of the execute stages. -/
theorem exec_cause {i : Instr} {s t : State} (h : exec i s = .next t) :
    t.cause = s.cause ∨ ∃ e, ExecExc i e ∧ t.cause = e.cause := by
  rcases exec_cases h with ⟨e, he, rfl⟩ | ⟨_, _, -, -, rfl⟩ | ⟨_, -, rfl⟩ | ⟨_, _, -, -, -, rfl⟩ |
    ⟨_, _, _, _, -, -, -, rfl⟩ | ⟨_, _, _, -, -, rfl⟩ | ⟨_, _, _, _, _, -, -, -, rfl⟩ |
    ⟨_, _, _, _, _, -, -, -, rfl⟩
  · exact .inr ⟨e, he, rfl⟩
  · exact .inl rfl
  · exact .inl rfl
  · exact .inl rfl
  · exact .inl rfl
  · exact .inl rfl
  · left; split <;> rfl
  · left; split <;> rfl

theorem exec_cause_ne_illegalMode {i : Instr} {s t : State} (hs : s.cause ≠ .illegalMode) (h : exec i s = .next t) :
    t.cause ≠ .illegalMode := by
  rcases exec_cause h with hc | ⟨e, he, hc⟩
  · rwa [hc]
  · rw [hc]
    exact execExc_cause_ne_illegalMode he

theorem step_next (s : State) : ∃ t, step s = .next t := by
  by_cases ha : s.Active
  · cases hf : fetchInstr s with
    | ok i => rw [step_of_fetch ha hf]; exact exec_next i s
    | error e => exact ⟨_, step_of_fetch_error ha hf⟩
  · exact ⟨s, step_terminal ha⟩

/-- A step at a word that decodes raises no IllegalMode. -/
theorem step_cause_ne_illegalMode {s t : State} {w : Cell} {d : Desc} (ha : s.Active) (hw : s.Holds s.ip w)
    (hd : decodeWord w = .ok d) (hs : s.cause ≠ .illegalMode) (h : step s = .next t) : t.cause ≠ .illegalMode := by
  rcases step_cases ha h with ⟨e, he, rfl⟩ | ⟨i, -, hi⟩
  · obtain ⟨a, rfl⟩ := fetchInstr_error_of_decodeWord hw hd he
    simp [Exc.cause]
  · exact exec_cause_ne_illegalMode hs hi

/-- A word of opcode `op` with legal read digits decodes to that opcode, whatever its write digit. -/
theorem decodeWord_of_legal {w : Cell} {op : Opcode} (hop : IsOpcode w op) (hm : ModesLegal w op) :
    ∃ d, decodeWord w = .ok d ∧ d.op = op := by
  rw [decodeWord_of_isOpcode hop]
  exact decodeModes_ok_of_legal hm

/-- Settles O11: an illegal read digit fails the mode stage; with legal ones the word decodes, and what it assembles with
its operand cells is both what they decode to and what the step fetches. -/
theorem illegalModeExactlyOnReadDigits : Obligations.IllegalModeExactlyOnReadDigits := by
  intro s w op ha hw hop
  refine ⟨fun hm => ?_, fun hm hs => ?_, fun hm raw hr hl => ?_⟩
  · have hx : decodeWord w = .error .illegalMode := by rw [decodeWord_of_isOpcode hop, decodeModes_illegal hm]
    exact step_of_decodeWord_error ha hw hx
  · obtain ⟨d, hd, -⟩ := decodeWord_of_legal hop hm
    obtain ⟨t, ht⟩ := step_next s
    exact ⟨t, ht, step_cause_ne_illegalMode ha hw hd hs ht⟩
  · obtain ⟨d, hd, rfl⟩ := decodeWord_of_legal hop hm
    have hdec := decode_of_decodeWord hd hl
    exact ⟨d.assemble raw, hdec, assemble_opcode d raw, d.operands_assemble hl,
      step_of_fetch ha (fetchInstr_of_decode hdec ⟨hw, hr⟩)⟩

end Sys2Proof.Machine
end

section
/-!
PROOFS. Steps that complete nothing (40_step_cycle.md R122, R123): a step of a terminal state, one that raises and one
that blocks. What the STEP command returns follows from `step`.
-/

namespace Sys2Proof.Machine

/-- Only the empty queue of IN ends an instruction Blocked: every other end writes another status. -/
theorem exec_blocked {i : Instr} {s t : State} (h : exec i s = .next t) (hb : t.status = .blocked) : t = s.block := by
  rcases exec_cases h with ⟨_, -, rfl⟩ | ⟨_, _, -, -, rfl⟩ | ⟨_, -, rfl⟩ | ⟨_, _, -, -, -, rfl⟩ |
    ⟨_, _, _, _, -, -, -, rfl⟩ | ⟨_, _, _, -, -, rfl⟩ | ⟨_, _, _, _, _, -, -, -, rfl⟩ |
    ⟨_, _, _, _, _, -, -, -, rfl⟩
  · simp at hb
  · rfl
  · simp at hb
  · simp at hb
  · simp at hb
  · simp at hb
  · split at hb <;> simp at hb
  · split at hb <;> simp at hb

/-- A step that ends Faulted is a fault entry, of the fetch or of the instruction. -/
theorem step_faulted {s t : State} (ha : s.Active) (h : step s = .next t) (hf : t.status = .faulted) :
    ∃ e, t = takeFault e s := by
  rcases step_cases ha h with ⟨e, -, rfl⟩ | ⟨i, -, hi⟩
  · exact ⟨e, rfl⟩
  · obtain ⟨e, -, he⟩ := exec_faulted hi hf
    exact ⟨e, he⟩

theorem step_blocked {s t : State} (ha : s.Active) (h : step s = .next t) (hb : t.status = .blocked) :
    t = s.block := by
  rcases step_cases ha h with ⟨e, -, rfl⟩ | ⟨i, -, hi⟩
  · simp at hb
  · exact exec_blocked hi hb

/-- Settles O15: a step that ends Faulted is a fault entry, and one that ends Blocked is a suspension. -/
theorem stepIsAllOrNothing : Obligations.StepIsAllOrNothing := by
  intro s t ha h
  refine ⟨fun hf => ?_, step_blocked ha h⟩
  obtain ⟨e, rfl⟩ := step_faulted ha h hf
  exact takeFault_eq e s

/-- The STEP command leaves a terminal state and returns what its status says. -/
theorem returns_terminal {s : State} (h : ¬ s.Active) : Returns s s s.result := returns_iff.2 ⟨step_terminal h, rfl⟩

theorem result_of_halted {s : State} (h : s.status = .halted) : s.result = .halted := by simp only [State.result, h]

theorem result_of_faulted {s : State} (h : s.status = .faulted) : s.result = .faulted s.cause s.finfo := by
  simp only [State.result, h]

/-- Settles O13: neither status is active, and the result is read off the status. -/
theorem terminalStepsDoNothing : Obligations.TerminalStepsDoNothing := fun s =>
  ⟨fun hs => result_of_halted hs ▸ returns_terminal (by simp [State.Active, hs]),
    fun hs => result_of_faulted hs ▸ returns_terminal (by simp [State.Active, hs])⟩

end Sys2Proof.Machine
end

section
/-!
PROOFS. The value of a read parameter (40_step_cycle.md R116, R117).
-/

namespace Sys2Proof.Machine

/-- Settles O31: position mode is a memory read, immediate mode the operand itself. -/
theorem readParameterValue : Obligations.ReadParameterValue := fun _ _ =>
  ⟨memRead_inBounds, memRead_outOfBounds, rfl⟩

end Sys2Proof.Machine
end

section
/-!
PROOFS. The fatal conditions of fetch, decode and operand fetch (40_step_cycle.md R111, R113, R114), common to every
opcode.
-/

namespace Sys2Proof.Machine

/-- The STEP command returns the record of the fault that the step enters. -/
theorem faultsWith_of_takeFault {s : State} {e : Exc} (h : step s = .next (takeFault e s)) :
    FaultsWith s e.cause e.info :=
  faultsWith_iff.2 h

theorem fetchInstr_of_ip_outOfBounds {s : State} (h : ¬ s.inBounds s.ip) :
    fetchInstr s = .error (.outOfBounds s.ip) := by
  simp only [fetchInstr, memRead_outOfBounds h]

/-- With a word that decodes, the first operand cell out of range is the fault of the fetch. -/
theorem fetchInstr_of_operand_outOfBounds {s : State} {w : Cell} {d : Desc} {cs : List Cell} (hw : s.Holds s.ip w)
    (hd : decodeWord w = .ok d) (hcs : s.HoldsCells (s.ip + 1) cs) (hl : cs.length < d.op.nparams)
    (hb : ¬ s.inBounds (s.ip + 1 + BitVec.ofNat 64 cs.length)) :
    fetchInstr s = .error (.outOfBounds (s.ip + 1 + BitVec.ofNat 64 cs.length)) := by
  have hw' : memRead s s.ip = .ok w := hw
  simp only [fetchInstr, hw', hd, readCells_error hcs hl hb]

theorem commonStages (op : Opcode) : CommonStages op := by
  refine ⟨fun s ha hip => ?_, fun s w ha hw hop => ⟨fun hm => ?_, fun cs hm hcs hl hb => ?_⟩⟩
  · exact faultsWith_of_takeFault (step_of_fetch_error ha (fetchInstr_of_ip_outOfBounds hip))
  · obtain ⟨hillegal, -, -⟩ := illegalModeExactlyOnReadDigits s w op ha hw hop
    exact faultsWith_iff.2 (hillegal hm)
  · obtain ⟨d, hd, rfl⟩ := decodeWord_of_legal hop hm
    exact faultsWith_of_takeFault (step_of_fetch_error ha (fetchInstr_of_operand_outOfBounds hw hd hcs hl hb))

end Sys2Proof.Machine
end

section
/-!
PROOFS. A step of the storing shape (format P3): what it does is said once, for any computation of the stored value
(41_arithmetic.md R140, R141; 44_compare.md R170, R171).
-/

namespace Sys2Proof.Machine

/-- The step of an instruction with two read parameters is `exec` of that instruction, whose parameters have the values
that the word's mode digits say. -/
theorem step_two_reads {s : State} {w : Cell} {op : Opcode} {raw : List Cell} (ha : s.Active) (hop : IsOpcode w op)
    (h2 : op.nreads = 2) (h3 : digit 3 w.toNat ≤ 1) (h4 : digit 4 w.toNat ≤ 1) (hc : s.HoldsCells s.ip (w :: raw))
    (hl : raw.length = op.nparams) :
    ∃ m1 m2 ign, (∀ r, resolve s (m1.src r) = paramValue s w 1 r) ∧ (∀ r, resolve s (m2.src r) = paramValue s w 2 r) ∧
      ((Desc.mk op m1 m2 ign).assemble raw).word = w ∧ step s = exec ((Desc.mk op m1 m2 ign).assemble raw) s := by
  obtain ⟨hw, hr⟩ := hc
  obtain ⟨m1, m2, ign, hm1, hm2, hf, hword⟩ := fetchInstr_two_reads hop h2 h3 h4 hw hr hl
  exact ⟨m1, m2, ign, resolve_src hm1, resolve_src hm2, hword, step_of_fetch ha hf⟩

/-- The cell at `d` is written, `ip` and `status` are committed, and everything else is left alone. -/
theorem withCell_advance_frame {s : State} {d : Cell} (r : Cell) (hm : s.mem.wf) (hd : s.inBounds d) :
    ((s.withCell d r).advance 3).Holds d r ∧ MemSameBut d s ((s.withCell d r).advance 3) ∧
      RestSame s ((s.withCell d r).advance 3) ∧ ((s.withCell d r).advance 3).ip = s.ip + 4 ∧
      ((s.withCell d r).advance 3).status = .running :=
  ⟨withCell_holds hm hd rfl rfl, withCell_memSameBut hd rfl rfl, ⟨rfl, rfl, rfl, rfl⟩, State.advance_ip 3 _,
    State.advance_status 3 _⟩

/-- The step from `s` has the storing shape: its read parameters are those of the word `w` with the raw operands `r1` and
`r2`, and `f` of their values goes to `d`. -/
def StoringStep (s : State) (w r1 r2 d : Cell) (f : Cell → Cell → Except Exc Cell) : Prop :=
  ∃ s1 s2, resolve s s1 = paramValue s w 1 r1 ∧ resolve s s2 = paramValue s w 2 r2 ∧
    step s = finish s (computeStore s s1 s2 d f)

/-- The cells of an instruction with two read parameters and a destination make a storing step, when `exec` of what they
assemble to has the storing shape. The computation `f` may use the instruction word, which an overflow fault records. -/
theorem storingStep_of_cells {s : State} {w r1 r2 d : Cell} {op : Opcode} {f : Cell → Cell → Cell → Except Exc Cell}
    (hexec : ∀ m1 m2 ign, exec ((Desc.mk op m1 m2 ign).assemble [r1, r2, d]) s =
      finish s (computeStore s (m1.src r1) (m2.src r2) d (f ((Desc.mk op m1 m2 ign).assemble [r1, r2, d]).word)))
    (h2 : op.nreads = 2) (hn : op.nparams = 3) (ha : s.Active) (hop : IsOpcode w op) (h3 : digit 3 w.toNat ≤ 1)
    (h4 : digit 4 w.toNat ≤ 1) (hc : s.HoldsCells s.ip [w, r1, r2, d]) : StoringStep s w r1 r2 d (f w) := by
  obtain ⟨m1, m2, ign, hr1, hr2, hword, hstep⟩ := step_two_reads ha hop h2 h3 h4 hc hn.symm
  refine ⟨m1.src r1, m2.src r2, hr1 r1, hr2 r2, ?_⟩
  rw [hstep, hexec, hword]

namespace StoringStep

variable {s : State} {w r1 r2 d : Cell} {f : Cell → Cell → Except Exc Cell}

theorem param1_faults {e : Exc} (h : StoringStep s w r1 r2 d f) (h1 : paramValue s w 1 r1 = .error e) :
    FaultsWith s .outOfBounds r1 := by
  obtain ⟨s1, s2, hs1, -, hstep⟩ := h
  obtain rfl := paramValue_error h1
  have hfail := computeStore_error_operands (d := d) (f := f) (resolve2_error_left (s2 := s2) (hs1.trans h1))
  exact faultsWith_of_takeFault (hstep.trans (finish_error hfail))

theorem param2_faults {a : Cell} {e : Exc} (h : StoringStep s w r1 r2 d f) (h1 : paramValue s w 1 r1 = .ok a)
    (h2 : paramValue s w 2 r2 = .error e) : FaultsWith s .outOfBounds r2 := by
  obtain ⟨s1, s2, hs1, hs2, hstep⟩ := h
  obtain rfl := paramValue_error h2
  have hfail := computeStore_error_operands (d := d) (f := f) (resolve2_error_right (hs1.trans h1) (hs2.trans h2))
  exact faultsWith_of_takeFault (hstep.trans (finish_error hfail))

/-- A failing computation faults, wherever the destination is. -/
theorem compute_faults {a b : Cell} {e : Exc} (h : StoringStep s w r1 r2 d f) (h1 : paramValue s w 1 r1 = .ok a)
    (h2 : paramValue s w 2 r2 = .ok b) (hf : f a b = .error e) : FaultsWith s e.cause e.info := by
  obtain ⟨s1, s2, hs1, hs2, hstep⟩ := h
  have hfail := computeStore_error_compute (d := d) (hs1.trans h1) (hs2.trans h2) hf
  exact faultsWith_of_takeFault (hstep.trans (finish_error hfail))

theorem destination_faults {a b r : Cell} (h : StoringStep s w r1 r2 d f) (h1 : paramValue s w 1 r1 = .ok a)
    (h2 : paramValue s w 2 r2 = .ok b) (hf : f a b = .ok r) (hd : ¬ s.inBounds d) : FaultsWith s .outOfBounds d := by
  obtain ⟨s1, s2, hs1, hs2, hstep⟩ := h
  have hfail := computeStore_error_dst (hs1.trans h1) (hs2.trans h2) hf hd
  exact faultsWith_of_takeFault (hstep.trans (finish_error hfail))

theorem completes {a b r : Cell} (h : StoringStep s w r1 r2 d f) (h1 : paramValue s w 1 r1 = .ok a)
    (h2 : paramValue s w 2 r2 = .ok b) (hf : f a b = .ok r) (hd : s.inBounds d) :
    Returns s ((s.withCell d r).advance 3) .cont := by
  obtain ⟨s1, s2, hs1, hs2, hstep⟩ := h
  have hstore := computeStore_ok (hs1.trans h1) (hs2.trans h2) hf hd
  exact returns_iff.2 ⟨hstep.trans (finish_ok hstore), rfl⟩

end StoringStep

end Sys2Proof.Machine
end

section
/-!
PROOFS. ADD and MUL (41_arithmetic.md R140 to R142): steps of the storing shape whose computation is the exact result or
the overflow fault.
-/

namespace Sys2Proof.Machine

/-- What a storing step does with the exact result `g a b` of its parameters' values (41_arithmetic.md R142): the range
test comes before the destination's. -/
theorem StoringStep.exact_result {s : State} {w r1 r2 d a b : Cell} {g : Cell → Cell → Int}
    (h : StoringStep s w r1 r2 d fun x y => exactOrOverflow w (g x y)) (hm : s.mem.wf)
    (h1 : paramValue s w 1 r1 = .ok a) (h2 : paramValue s w 2 r2 = .ok b) :
    (¬ InCell (g a b) → FaultsWith s .arithmeticOverflow w) ∧
    (InCell (g a b) → ¬ s.inBounds d → FaultsWith s .outOfBounds d) ∧
    (InCell (g a b) → s.inBounds d →
      ∃ t r, Returns s t .cont ∧ t.Holds d r ∧ r.toInt = g a b ∧ MemSameBut d s t ∧ RestSame s t ∧
        t.ip = s.ip + 4 ∧ t.status = .running) := by
  refine ⟨fun hr => ?_, fun hr hd => ?_, fun hr hd => ?_⟩
  · exact h.compute_faults h1 h2 (exactOrOverflow_of_not_inCell hr)
  · obtain ⟨r, hf, -⟩ := exactOrOverflow_of_inCell (w := w) hr
    exact h.destination_faults h1 h2 hf hd
  · obtain ⟨r, hf, hval⟩ := exactOrOverflow_of_inCell (w := w) hr
    obtain ⟨hholds, hframe⟩ := withCell_advance_frame r hm hd
    exact ⟨_, r, h.completes h1 h2 hf hd, hholds, hval, hframe⟩

/-- Settles O17: the step has the storing shape, with the exact sum or its overflow fault as the computation. -/
theorem addStep : Obligations.AddStep := by
  refine ⟨commonStages .add, fun s w r1 r2 d ha hm hop h3 h4 hc => ?_⟩
  have h := storingStep_of_cells (f := fun w a b => exactOrOverflow w (a.toInt + b.toInt)) (fun _ _ _ => rfl)
    rfl rfl ha hop h3 h4 hc
  exact ⟨fun _ => h.param1_faults, fun _ _ => h.param2_faults, fun _ _ => h.exact_result hm⟩

/-- Settles O18: the step has the storing shape, with the exact product or its overflow fault as the computation. -/
theorem mulStep : Obligations.MulStep := by
  refine ⟨commonStages .mul, fun s w r1 r2 d ha hm hop h3 h4 hc => ?_⟩
  have h := storingStep_of_cells (f := fun w a b => exactOrOverflow w (a.toInt * b.toInt)) (fun _ _ _ => rfl)
    rfl rfl ha hop h3 h4 hc
  exact ⟨fun _ => h.param1_faults, fun _ _ => h.param2_faults, fun _ _ => h.exact_result hm⟩

end Sys2Proof.Machine
end

section
/-!
PROOFS. IN and OUT (42_io.md R150 to R152): the instruction that their cells make a step execute, and every way that
`exec` of it can end.
-/

namespace Sys2Proof.Machine

/-! ## From the cells to `exec` -/

/-- IN has no read parameter, so every mode digit is legal. -/
theorem modesLegal_input (w : Cell) : ModesLegal w .input := fun k h1 h2 h3 => by
  simp only [Opcode.nparams, Opcode.writeParam] at h2 h3
  omega

theorem modesLegal_output {w : Cell} (h : digit 3 w.toNat ≤ 1) : ModesLegal w .output := fun k h1 h2 _ => by
  obtain rfl : k = 1 := Nat.le_antisymm h2 h1
  exact h

theorem step_input_of_cells {s : State} {w d : Cell} (ha : s.Active) (hop : IsOpcode w .input)
    (hc : s.HoldsCells s.ip [w, d]) : ∃ ign, step s = exec (.input d ign) s := by
  obtain ⟨hw, hr⟩ := hc
  obtain ⟨⟨op, m1, m2, ign⟩, -, rfl, hf, -⟩ := fetchInstr_of_cells hop (modesLegal_input w) hw hr rfl
  exact ⟨ign, step_of_fetch ha hf⟩

/-- The parameter of the OUT executed has the value that the word's mode digit says. -/
theorem step_output_of_cells {s : State} {w r1 : Cell} (ha : s.Active) (hop : IsOpcode w .output)
    (h3 : digit 3 w.toNat ≤ 1) (hc : s.HoldsCells s.ip [w, r1]) :
    ∃ s1 ign, resolve s s1 = paramValue s w 1 r1 ∧ step s = exec (.output s1 ign) s := by
  obtain ⟨hw, hr⟩ := hc
  obtain ⟨desc, hd, -, hf, -⟩ := fetchInstr_of_cells hop (modesLegal_output h3) hw hr rfl
  rcases decodeModes_ok.1 hd with ⟨h0, -⟩ | ⟨-, m1, hm1, rfl⟩ | ⟨h0, -⟩
  · exact absurd h0 (by decide)
  · exact ⟨m1.src r1, _, resolve_src hm1 r1, step_of_fetch ha hf⟩
  · exact absurd h0 (by decide)

/-! ## The ends of IN and OUT -/

/-- The empty queue is found before the destination is looked at. -/
theorem exec_input_of_empty {s : State} (d : Cell) (ign : Nat) (hq : s.inq = []) :
    exec (.input d ign) s = .next s.block := by
  simp only [exec, execInput, hq]

theorem exec_input_of_outOfBounds {s : State} {d : Cell} (ign : Nat) (hq : s.inq ≠ []) (hd : ¬ s.inBounds d) :
    exec (.input d ign) s = .next (takeFault (.outOfBounds d) s) := by
  obtain ⟨v, rest, hq⟩ := List.exists_cons_of_ne_nil hq
  simp only [exec, execInput, hq, memWrite_outOfBounds v hd, finish]

theorem exec_input_of_inBounds {s : State} {d v : Cell} {rest : List Cell} (ign : Nat) (hq : s.inq = v :: rest)
    (hd : s.inBounds d) : exec (.input d ign) s = .next (((s.withCell d v).withInq rest).advance 1) := by
  simp only [exec, execInput, hq, memWrite_inBounds v hd, finish]

/-- The frame of an IN that completes (42_io.md R150): besides the front of `inq` it writes the destination cell, `ip` and
`status` alone. -/
theorem exec_input_completes {s : State} {d v : Cell} {rest : List Cell} (ign : Nat) (hm : s.mem.wf)
    (hq : s.inq = v :: rest) (hd : s.inBounds d) :
    ∃ t, exec (.input d ign) s = .next t ∧ t.Holds d v ∧ MemSameBut d s t ∧ t.inq = rest ∧ t.outq = s.outq ∧
      t.cause = s.cause ∧ t.finfo = s.finfo ∧ t.ip = s.ip + 2 ∧ t.status = .running :=
  ⟨_, exec_input_of_inBounds ign hq hd, withCell_holds hm hd rfl rfl, withCell_memSameBut hd rfl rfl, rfl, rfl, rfl,
    rfl, State.advance_ip 1 _, State.advance_status 1 _⟩

theorem exec_output_of_error {s : State} {s1 : Src} {e : Exc} (ign : Nat) (h : resolve s s1 = .error e) :
    exec (.output s1 ign) s = .next (takeFault e s) := by
  simp only [exec, execOutput, h, finish]

theorem exec_output_of_ok {s : State} {s1 : Src} {a : Cell} (ign : Nat) (h : resolve s s1 = .ok a) :
    exec (.output s1 ign) s = .next ((s.pushOut a).advance 1) := by
  simp only [exec, execOutput, h, finish]

theorem result_of_running {s : State} (h : s.status = .running) : s.result = .cont := by simp only [State.result, h]

/-! ## The steps -/

/-- Settles O19: the step is `exec` of the IN, which blocks on the empty queue, faults by its destination, or completes. -/
theorem inStep : Obligations.InStep := by
  refine ⟨commonStages .input, fun s w d ha hm hop hc => ?_⟩
  obtain ⟨ign, hstep⟩ := step_input_of_cells ha hop hc
  refine ⟨fun hq => ?_, fun hq hd => ?_, fun v rest hq hd => ?_⟩
  · exact returns_iff.2 ⟨hstep.trans (exec_input_of_empty d ign hq), rfl⟩
  · exact faultsWith_of_takeFault (hstep.trans (exec_input_of_outOfBounds ign hq hd))
  · obtain ⟨t, hexec, hholds, hmem, hinq, houtq, hcause, hfinfo, hip, hrun⟩ := exec_input_completes ign hm hq hd
    exact ⟨t, returns_iff.2 ⟨hstep.trans hexec, result_of_running hrun⟩, hholds, hmem, hinq, houtq, hcause, hfinfo,
      hip, hrun⟩

/-- Settles O20: the step is `exec` of the OUT, which faults by its parameter's address or appends the value. -/
theorem outStep : Obligations.OutStep := by
  refine ⟨commonStages .output, fun s w r1 ha hop h3 hc => ?_⟩
  obtain ⟨s1, ign, hs1, hstep⟩ := step_output_of_cells ha hop h3 hc
  refine ⟨fun e he => ?_, fun a hv => ?_⟩
  · obtain rfl := paramValue_error he
    exact faultsWith_of_takeFault (hstep.trans (exec_output_of_error ign (hs1.trans he)))
  · exact returns_iff.2 ⟨hstep.trans (exec_output_of_ok ign (hs1.trans hv)), rfl⟩

end Sys2Proof.Machine
end

section
/-!
PROOFS. JNZ and JZ (43_jump.md R160 to R163): a step of the jumping shape (format P2) resolves both parameters, then jumps
or falls through. What such a step does is said once, for any test of the first value.
-/

namespace Sys2Proof.Machine

/-- The step from `s` has the jumping shape: its read parameters are those of the word `w` with the raw operands `r1` and
`r2`, and `taken` tests the value of the first. -/
def JumpingStep (s : State) (w r1 r2 : Cell) (taken : Cell → Bool) : Prop :=
  ∃ s1 s2, resolve s s1 = paramValue s w 1 r1 ∧ resolve s s2 = paramValue s w 2 r2 ∧
    step s = finish s (condJump s s1 s2 taken)

/-- The cells of an instruction with two read parameters and no other make a jumping step, when `exec` of what they
assemble to has the jumping shape. -/
theorem jumpingStep_of_cells {s : State} {w r1 r2 : Cell} {op : Opcode} {taken : Cell → Bool}
    (hexec : ∀ m1 m2 ign, exec ((Desc.mk op m1 m2 ign).assemble [r1, r2]) s =
      finish s (condJump s (m1.src r1) (m2.src r2) taken))
    (h2 : op.nreads = 2) (hn : op.nparams = 2) (ha : s.Active) (hop : IsOpcode w op) (h3 : digit 3 w.toNat ≤ 1)
    (h4 : digit 4 w.toNat ≤ 1) (hc : s.HoldsCells s.ip [w, r1, r2]) : JumpingStep s w r1 r2 taken := by
  obtain ⟨m1, m2, ign, hr1, hr2, -, hstep⟩ := step_two_reads ha hop h2 h3 h4 hc hn.symm
  exact ⟨m1.src r1, m2.src r2, hr1 r1, hr2 r2, hstep.trans (hexec m1 m2 ign)⟩

namespace JumpingStep

variable {s : State} {w r1 r2 a b : Cell} {taken : Cell → Bool}

theorem param1_faults {e : Exc} (h : JumpingStep s w r1 r2 taken) (h1 : paramValue s w 1 r1 = .error e) :
    FaultsWith s .outOfBounds r1 := by
  obtain ⟨s1, s2, hs1, -, hstep⟩ := h
  obtain rfl := paramValue_error h1
  have hfail := condJump_error (taken := taken) (resolve2_error_left (s2 := s2) (hs1.trans h1))
  exact faultsWith_of_takeFault (hstep.trans (finish_error hfail))

/-- The target's value is asked for whether or not the jump is taken (43_jump.md R163). -/
theorem param2_faults {e : Exc} (h : JumpingStep s w r1 r2 taken) (h1 : paramValue s w 1 r1 = .ok a)
    (h2 : paramValue s w 2 r2 = .error e) : FaultsWith s .outOfBounds r2 := by
  obtain ⟨s1, s2, hs1, hs2, hstep⟩ := h
  obtain rfl := paramValue_error h2
  have hfail := condJump_error (taken := taken) (resolve2_error_right (hs1.trans h1) (hs2.trans h2))
  exact faultsWith_of_takeFault (hstep.trans (finish_error hfail))

theorem step_of_values (h : JumpingStep s w r1 r2 taken) (h1 : paramValue s w 1 r1 = .ok a)
    (h2 : paramValue s w 2 r2 = .ok b) : step s = .next (if taken a then s.jumpTo b else s.advance 2) := by
  obtain ⟨s1, s2, hs1, hs2, hstep⟩ := h
  exact hstep.trans (finish_ok (condJump_ok (hs1.trans h1) (hs2.trans h2)))

/-- The target is copied into `ip` unchecked (43_jump.md R162). -/
theorem jumps (h : JumpingStep s w r1 r2 taken) (h1 : paramValue s w 1 r1 = .ok a)
    (h2 : paramValue s w 2 r2 = .ok b) (ht : taken a = true) :
    Returns s { s with ip := b, status := .running } .cont := by
  have hstep := h.step_of_values h1 h2
  rw [if_pos ht] at hstep
  exact returns_iff.2 ⟨hstep, rfl⟩

theorem falls_through (h : JumpingStep s w r1 r2 taken) (h1 : paramValue s w 1 r1 = .ok a)
    (h2 : paramValue s w 2 r2 = .ok b) (ht : ¬ taken a = true) :
    Returns s { s with ip := s.ip + 3, status := .running } .cont := by
  have hstep := h.step_of_values h1 h2
  rw [if_neg ht] at hstep
  exact returns_iff.2 ⟨hstep, rfl⟩

end JumpingStep

/-- The test of JZ, on cells, is the specification's, on integers. -/
theorem beq_zero_iff_toInt {a : Cell} : (a == 0) = true ↔ a.toInt = 0 :=
  beq_iff_eq.trans BitVec.toInt_inj.symm

/-- The test of JNZ, on cells, is the specification's, on integers. -/
theorem bne_zero_iff_toInt {a : Cell} : (a != 0) = true ↔ a.toInt ≠ 0 :=
  bne_iff_ne.trans BitVec.toInt_inj.symm.not

/-- Settles O21: the step has the jumping shape, taken on every value but 0. -/
theorem jnzStep : Obligations.JnzStep := by
  refine ⟨commonStages .jnz, fun s w r1 r2 ha hop h3 h4 hc => ?_⟩
  have h : JumpingStep s w r1 r2 fun a => a != 0 :=
    jumpingStep_of_cells (fun _ _ _ => rfl) rfl rfl ha hop h3 h4 hc
  refine ⟨fun _ => h.param1_faults, fun _ _ => h.param2_faults, fun a b h1 h2 => ⟨fun hv => ?_, fun hv => ?_⟩⟩
  · exact h.jumps h1 h2 (bne_zero_iff_toInt.2 hv)
  · exact h.falls_through h1 h2 fun ht => bne_zero_iff_toInt.1 ht hv

/-- Settles O22: the step has the jumping shape, taken on the value 0 alone. -/
theorem jzStep : Obligations.JzStep := by
  refine ⟨commonStages .jz, fun s w r1 r2 ha hop h3 h4 hc => ?_⟩
  have h : JumpingStep s w r1 r2 fun a => a == 0 :=
    jumpingStep_of_cells (fun _ _ _ => rfl) rfl rfl ha hop h3 h4 hc
  refine ⟨fun _ => h.param1_faults, fun _ _ => h.param2_faults, fun a b h1 h2 => ⟨fun hv => ?_, fun hv => ?_⟩⟩
  · exact h.jumps h1 h2 (beq_zero_iff_toInt.2 hv)
  · exact h.falls_through h1 h2 fun ht => hv (beq_zero_iff_toInt.1 ht)

end Sys2Proof.Machine
end

section
/-!
PROOFS. LT and EQ (44_compare.md R170, R171): steps of the storing shape whose computation is a test of the two values and
cannot fail.
-/

namespace Sys2Proof.Machine

/-- The test of LT is the signed order. -/
theorem signedLt_iff {a b : Cell} : signedLt a b = true ↔ a.toInt < b.toInt := decide_eq_true_iff

/-- The test of EQ, on cells, is the specification's, on integers. -/
theorem beq_iff_toInt {a b : Cell} : (a == b) = true ↔ a.toInt = b.toInt :=
  beq_iff_eq.trans BitVec.toInt_inj.symm

/-- What a storing step does with the test `c` of its parameters' values, which says whether `P`: only the destination can
fault, and the cell written is 1 or 0. -/
theorem StoringStep.comparison_result {s : State} {w r1 r2 d a b : Cell} {c : Cell → Cell → Bool} {P : Prop}
    (h : StoringStep s w r1 r2 d fun x y => .ok (boolCell (c x y))) (hm : s.mem.wf)
    (h1 : paramValue s w 1 r1 = .ok a) (h2 : paramValue s w 2 r2 = .ok b) (hP : c a b = true ↔ P) :
    (¬ s.inBounds d → FaultsWith s .outOfBounds d) ∧
    (s.inBounds d →
      ∃ t, Returns s t .cont ∧ (P → t.Holds d 1) ∧ (¬ P → t.Holds d 0) ∧ MemSameBut d s t ∧ RestSame s t ∧
        t.ip = s.ip + 4 ∧ t.status = .running) := by
  refine ⟨h.destination_faults h1 h2 rfl, fun hd => ?_⟩
  obtain ⟨hholds, hframe⟩ := withCell_advance_frame (boolCell (c a b)) hm hd
  have hone (hp : P) : boolCell (c a b) = 1 := if_pos (hP.2 hp)
  have hzero (hp : ¬ P) : boolCell (c a b) = 0 := if_neg (mt hP.1 hp)
  exact ⟨_, h.completes h1 h2 rfl hd, fun hp => hone hp ▸ hholds, fun hp => hzero hp ▸ hholds, hframe⟩

/-- Settles O23: the step has the storing shape, with the signed order as the computation. -/
theorem ltStep : Obligations.LtStep := by
  refine ⟨commonStages .lt, fun s w r1 r2 d ha hm hop h3 h4 hc => ?_⟩
  have h := storingStep_of_cells (f := fun _ a b => .ok (boolCell (signedLt a b))) (fun _ _ _ => rfl)
    rfl rfl ha hop h3 h4 hc
  exact ⟨fun _ => h.param1_faults, fun _ _ => h.param2_faults,
    fun _ _ h1 h2 => h.comparison_result hm h1 h2 signedLt_iff⟩

/-- Settles O24: the step has the storing shape, with equality as the computation. -/
theorem eqStep : Obligations.EqStep := by
  refine ⟨commonStages .eq, fun s w r1 r2 d ha hm hop h3 h4 hc => ?_⟩
  have h := storingStep_of_cells (f := fun _ a b => .ok (boolCell (a == b))) (fun _ _ _ => rfl)
    rfl rfl ha hop h3 h4 hc
  exact ⟨fun _ => h.param1_faults, fun _ _ => h.param2_faults,
    fun _ _ h1 h2 => h.comparison_result hm h1 h2 beq_iff_toInt⟩

end Sys2Proof.Machine
end

section
/-!
PROOFS. HLT (45_halt.md R180): its word alone makes a step execute it, whatever follows the word.
-/

namespace Sys2Proof.Machine

/-- HLT has no parameter, so every mode digit is legal. -/
theorem modesLegal_hlt (w : Cell) : ModesLegal w .hlt := fun k h1 h2 _ => by
  simp only [Opcode.nparams] at h2
  omega

/-- HLT reads no operand cell: its word decides what the step executes. -/
theorem step_hlt_of_word {s : State} {w : Cell} (ha : s.Active) (hw : s.Holds s.ip w) (hop : IsOpcode w .hlt) :
    ∃ ign, step s = exec (.hlt ign) s := by
  obtain ⟨⟨op, m1, m2, ign⟩, -, rfl, hf, -⟩ := fetchInstr_of_cells (raw := []) hop (modesLegal_hlt w) hw trivial rfl
  exact ⟨ign, step_of_fetch ha hf⟩

theorem exec_hlt (ign : Nat) (s : State) : exec (.hlt ign) s = .next s.halt := rfl

/-- Settles O25: the step is `exec` of the HLT, which writes `status` alone. -/
theorem hltStep : Obligations.HltStep := by
  refine ⟨commonStages .hlt, fun s w ha hw hop => ?_⟩
  obtain ⟨ign, hstep⟩ := step_hlt_of_word ha hw hop
  exact returns_iff.2 ⟨hstep.trans (exec_hlt ign s), result_of_halted s.halt_status⟩

end Sys2Proof.Machine
end

section
/-!
PROOFS. The memory commands (46_host_interface.md R192, R193), each said once for a good address and for a bad one.
-/

namespace Sys2Proof.Machine

theorem hostGetMem_inBounds {s : State} {a : Cell} (hs : s.status ≠ .faulted) (ha : s.inBounds a) :
    hostGetMem a s = (s, .value (s.mem.get a.toInt.toNat)) := by
  simp only [hostGetMem, if_neg hs, memRead_inBounds ha]

theorem hostGetMem_outOfBounds {s : State} {a : Cell} (hs : s.status ≠ .faulted) (ha : ¬ s.inBounds a) :
    hostGetMem a s = hostFault (.outOfBounds a) s := by
  simp only [hostGetMem, if_neg hs, memRead_outOfBounds ha]

theorem hostSetMem_of_memWrite {s t : State} {a v : Cell} (hs : s.status ≠ .faulted) (h : memWrite s a v = .ok t) :
    hostSetMem a v s = (t, .ack) := by
  simp only [hostSetMem, if_neg hs, h]

theorem hostSetMem_outOfBounds {s : State} {a : Cell} (v : Cell) (hs : s.status ≠ .faulted) (ha : ¬ s.inBounds a) :
    hostSetMem a v s = hostFault (.outOfBounds a) s := by
  simp only [hostSetMem, if_neg hs, memWrite_outOfBounds v ha]

theorem hostFault_outOfBounds_state (a : Cell) (s : State) :
    (hostFault (.outOfBounds a) s).1 = s.faultedWith .outOfBounds a :=
  takeFault_eq (.outOfBounds a) s

theorem hostFault_response_ne_value (e : Exc) (s : State) (v : Cell) : (hostFault e s).2 ≠ .value v := nofun

/-- Settles O49, by whether the address is in range: a good read keeps the state, a bad one is a host fault. -/
theorem getMemCommand : Obligations.GetMemCommand := by
  intro a s hs
  constructor
  · intro ha
    exact ⟨_, memRead_inBounds ha, hostGetMem_inBounds hs ha⟩
  · intro ha
    rw [hostGetMem_outOfBounds hs ha]
    exact ⟨hostFault_outOfBounds_state a s, hostFault_response_ne_value _ s⟩

/-- Settles O50: a good SET_MEM is `memWrite`, which changes the one cell; a bad one is a host fault. -/
theorem setMemCommand : Obligations.SetMemCommand := by
  intro a v s hs hm
  constructor
  · intro ha
    obtain ⟨t, hw, hframe⟩ := memWrite_changes_only_cell v hm ha
    exact ⟨t, congrArg Prod.fst (hostSetMem_of_memWrite hs hw), hframe⟩
  · intro ha
    rw [hostSetMem_outOfBounds v hs ha]
    exact hostFault_outOfBounds_state a s

end Sys2Proof.Machine
end

section
/-!
PROOFS. The queue commands (46_host_interface.md R194, R195). Pushing does not change `status`, so a sequence of pushes
that starts outside Faulted stays there.
-/

namespace Sys2Proof.Machine

theorem hostInPush_of_not_faulted {s : State} (v : Cell) (hs : s.status ≠ .faulted) :
    hostInPush v s = (s.pushIn v, .ack) :=
  if_neg hs

theorem hostOutPop_of_cons {s : State} {v : Cell} {q : List Cell} (hs : s.status ≠ .faulted) (hq : s.outq = v :: q) :
    hostOutPop s = (s.withOutq q, .value v) := by
  simp only [hostOutPop, if_neg hs, hq]

theorem hostOutPop_of_nil {s : State} (hs : s.status ≠ .faulted) (hq : s.outq = []) : hostOutPop s = (s, .empty) := by
  simp only [hostOutPop, if_neg hs, hq]

/-- Values pushed one by one stand at the back of the input queue in the order of the pushes. -/
theorem foldl_hostInPush (q : List Cell) {s : State} (hs : s.status ≠ .faulted) :
    q.foldl (fun u x => (hostInPush x u).1) s = s.withInq (s.inq ++ q) := by
  induction q generalizing s with
  | nil => rw [List.foldl_nil, List.append_nil]; rfl
  | cons x q ih =>
    have hpush : (s.pushIn x).status ≠ .faulted := hs
    calc (x :: q).foldl (fun u x => (hostInPush x u).1) s
      _ = q.foldl (fun u x => (hostInPush x u).1) (s.pushIn x) := by
        rw [List.foldl_cons, hostInPush_of_not_faulted x hs]
      _ = (s.pushIn x).withInq ((s.pushIn x).inq ++ q) := ih hpush
      _ = s.withInq (s.inq ++ x :: q) := by rw [State.pushIn_inq, List.append_assoc]; rfl

/-- Settles O51: OUT_POP by what `outq` holds, IN_PUSH by induction on the values pushed. -/
theorem queuesAreFifo : Obligations.QueuesAreFifo := fun _ q _ hs =>
  ⟨hostOutPop_of_cons hs, hostOutPop_of_nil hs, foldl_hostInPush q hs⟩

end Sys2Proof.Machine
end

section
/-!
PROOFS. RUN as repeated STEP (46_host_interface.md R200). `ReturnsAfter n` says what O55 asks of the `n` steps that end
in Continue and of the one after them; one step unfolds it exactly as it unfolds `runFor`.
-/

namespace Sys2Proof.Machine

theorem runFor_of_cont {s u : State} (n : Nat) (h : step s = .next u) (hu : u.result = .cont) :
    runFor (n + 1) s = runFor n u := by
  simp only [runFor, h, if_pos hu]

theorem runFor_of_not_cont {s u : State} (n : Nat) (h : step s = .next u) (hu : u.result ≠ .cont) :
    runFor (n + 1) s = some (u, u.result) := by
  simp only [runFor, h, if_neg hu]

/-- The first of `n + 1` steps leads to the start of the other `n`. -/
theorem coreRun_succ {s u : State} (n : Nat) (h : step s = .next u) :
    Host.Core.run Sys2Proof.core (n + 1) s = Host.Core.run Sys2Proof.core n u := by
  have hcore : Sys2Proof.core.step s = .next u := h
  simp only [Host.Core.run, hcore]

/-- `n` steps from `s`, all of them ending in Continue, lead to a state whose next step leads to `t` with the result
`r`, which is not Continue. -/
def ReturnsAfter (n : Nat) (s t : State) (r : StepResult) : Prop :=
  ∃ u : State, Host.Core.run Sys2Proof.core n s = .next u ∧
    (∀ k v, k < n → Host.Core.run Sys2Proof.core (k + 1) s = .next v → v.result = .cont) ∧
    step u = .next t ∧ t.result = r ∧ r ≠ .cont

theorem returnsAfter_zero {s t : State} {r : StepResult} :
    ReturnsAfter 0 s t r ↔ step s = .next t ∧ t.result = r ∧ r ≠ .cont := by
  constructor
  · rintro ⟨_, hrun, -, hstep⟩
    cases hrun
    exact hstep
  · intro hstep
    exact ⟨s, rfl, fun _ _ hk => absurd hk (Nat.not_lt_zero _), hstep⟩

theorem returnsAfter_succ {n : Nat} {s u t : State} {r : StepResult} (h : step s = .next u) :
    ReturnsAfter (n + 1) s t r ↔ u.result = .cont ∧ ReturnsAfter n u t r := by
  constructor
  · rintro ⟨w, hrun, hcont, hlast⟩
    refine ⟨hcont 0 u (Nat.succ_pos n) (coreRun_succ 0 h), w, (coreRun_succ n h).symm.trans hrun, ?_, hlast⟩
    intro k v hk hv
    exact hcont (k + 1) v (Nat.succ_lt_succ hk) ((coreRun_succ (k + 1) h).trans hv)
  · rintro ⟨hu, w, hrun, hcont, hlast⟩
    refine ⟨w, (coreRun_succ n h).trans hrun, ?_, hlast⟩
    intro k v hk hv
    rw [coreRun_succ k h] at hv
    cases k with
    | zero => cases hv; exact hu
    | succ k => exact hcont k v (Nat.lt_of_succ_lt_succ hk) hv

/-- A RUN watched for `fuel` steps has returned exactly when its last step is one of them. -/
theorem runFor_eq_some_iff {fuel : Nat} {s t : State} {r : StepResult} :
    runFor fuel s = some (t, r) ↔ ∃ n < fuel, ReturnsAfter n s t r := by
  induction fuel generalizing s with
  | zero => simp [runFor]
  | succ fuel ih =>
    obtain ⟨u, hu⟩ := step_next s
    rw [Nat.exists_lt_succ_left, returnsAfter_zero, hu, Host.Outcome.next.injEq]
    simp only [returnsAfter_succ hu]
    by_cases hc : u.result = .cont
    · rw [runFor_of_cont fuel hu hc, ih]
      have hfirst : ¬ (u = t ∧ t.result = r ∧ r ≠ .cont) := by
        rintro ⟨rfl, rfl, hr⟩
        exact hr hc
      simp [hfirst, hc]
    · rw [runFor_of_not_cont fuel hu hc]
      constructor
      · intro h
        cases h
        exact .inl ⟨rfl, rfl, hc⟩
      · rintro (⟨rfl, rfl, -⟩ | ⟨_, -, hu', -⟩)
        · rfl
        · exact absurd hu' hc

/-- Settles O55: a RUN that returns does so within some number of steps, and watching it for one more than the steps
that end in Continue is enough. -/
theorem runIsRepeatedStep : Obligations.RunIsRepeatedStep := by
  intro s t r
  constructor
  · rintro ⟨fuel, h⟩
    obtain ⟨n, -, hn⟩ := runFor_eq_some_iff.1 h
    exact ⟨n, hn⟩
  · rintro ⟨n, hn⟩
    exact ⟨n + 1, runFor_eq_some_iff.2 ⟨n, Nat.lt_succ_self n, hn⟩⟩

end Sys2Proof.Machine
end

section
/-!
PROOFS. The commands in Faulted (46_host_interface.md R206): each leaves the state and its response is fixed by the
command and the fault record. A RUN that is not watched for a step is the only one that does not return.
-/

namespace Sys2Proof.Machine

/-- What a command answers when `s` is Faulted (R206). R206 excepts CONSTRUCT, whose entry here means nothing. -/
def State.faultedResponse (s : State) : Command → Response
  | .getMem _ | .outPop | .readInq | .readOutq => .noValue
  | .setMem _ _ | .inPush _ | .replaceInq _ | .replaceOutq _ | .construct _ _ => .ack
  | .step | .run => .result (.faulted s.cause s.finfo)

theorem step_of_faulted {s : State} (hs : s.status = .faulted) : step s = .next s :=
  step_terminal (by simp [State.Active, hs])

theorem runFor_of_faulted {s : State} (n : Nat) (hs : s.status = .faulted) :
    runFor (n + 1) s = some (s, .faulted s.cause s.finfo) := by
  have hr := result_of_faulted hs
  rw [runFor_of_not_cont n (step_of_faulted hs) (by simp [hr]), hr]

theorem perform_of_faulted {mm : Config.MaxMem} {fuel : Nat} {c : Command} {s : State} (hs : s.status = .faulted)
    (hc : ∀ src cap, c ≠ .construct src cap) (hrun : c = .run → fuel ≠ 0) :
    perform mm fuel c s = some (s, s.faultedResponse c) := by
  cases c with
  | construct src cap => exact absurd rfl (hc src cap)
  | getMem | setMem | inPush | outPop | readInq | readOutq | replaceInq | replaceOutq => exact congrArg some (if_pos hs)
  | step =>
    exact returns_iff.2 ⟨step_of_faulted hs, result_of_faulted hs⟩
  | run =>
    obtain ⟨n, rfl⟩ := Nat.exists_eq_succ_of_ne_zero (hrun rfl)
    simp only [perform, hostRun, runFor_of_faulted n hs, State.faultedResponse]

theorem perform_run_zero (mm : Config.MaxMem) (s : State) : perform mm 0 .run s = none := rfl

/-- Settles O53: every command that returns leaves `s` and answers `faultedResponse`, and only a RUN watched for no step
does not return. -/
theorem faultedIsAbsorbing : Obligations.FaultedIsAbsorbing := by
  intro mm fuel c s hs hc
  refine ⟨fun t r h => ?_, fun hrun => ?_, ?_⟩
  · have hwatched : c = .run → fuel ≠ 0 := by
      rintro rfl rfl
      rw [perform_run_zero] at h
      cases h
    rw [perform_of_faulted hs hc hwatched] at h
    cases h
    refine ⟨rfl, ?_, ?_, ?_⟩
    · rintro a rfl; rfl
    · rintro rfl; rfl
    · rintro (rfl | rfl) <;> rfl
  · exact ⟨_, perform_of_faulted hs hc fun h => absurd h hrun⟩
  · exact perform_of_faulted hs nofun fun _ => Nat.succ_ne_zero fuel

end Sys2Proof.Machine
end

section
/-!
PROOFS. The encoding (30_encoding.md sections 1 to 5): `decode_ok_iff` says once which lists of cells decode, and to what;
the two round trips are its two directions.
-/

namespace Sys2Proof.Machine

/-- A decoded descriptor has the opcode of its mode stage. -/
theorem decodeModes_op {op : Opcode} {n : Nat} {d : Desc} (h : decodeModes op n = .ok d) : d.op = op := by
  rcases decodeModes_ok.1 h with ⟨-, rfl⟩ | ⟨-, _, -, rfl⟩ | ⟨-, _, _, -, -, rfl⟩ <;> rfl

theorem decodeModes_ok_legal {w : Cell} {op : Opcode} {d : Desc} (h : decodeModes op w.toNat = .ok d) :
    ModesLegal w op := by
  by_contra hm
  rw [decodeModes_illegal hm] at h
  cases h

/-- Settles O4: `decodeWord` finds the opcode's number, and the mode stage fails exactly on an illegal digit. -/
theorem wordDecodesExactlyWhenLegal : Obligations.WordDecodesExactlyWhenLegal := by
  intro w op
  constructor
  · rintro ⟨d, hd, rfl⟩
    obtain ⟨op, hop, hm⟩ := isOpcode_of_decodeWord hd
    obtain rfl := decodeModes_op hm
    exact ⟨hop, decodeModes_ok_legal hm⟩
  · rintro ⟨hop, hm⟩
    exact decodeWord_of_legal hop hm

/-- Settles O6: the digits that the premise compares are those of the read parameters. -/
theorem onlyReadModeDigitsMatter : Obligations.OnlyReadModeDigitsMatter := by
  intro w v op hw hv h
  refine wordMeaning_congr hw hv fun k h1 h2 => ?_
  obtain ⟨hk, hn, hwp⟩ := (op.read_iff k).2 ⟨h1, h2⟩
  exact h k hk hn hwp

/-- Only the first `NPARAMS` cells are operands. -/
theorem assemble_append (d : Desc) {raw : List Cell} (rest : List Cell) (h : raw.length = d.op.nparams) :
    d.assemble (raw ++ rest) = d.assemble raw := by
  have hget : ∀ k < d.op.nparams, (raw ++ rest)[k]? = raw[k]? := fun k hk =>
    List.getElem?_append_left (h ▸ hk)
  cases hop : d.op <;> simp only [hop, Opcode.nparams] at hget <;> simp [Desc.assemble, hop, hget]

/-- A list of cells decodes exactly when it is a word that decodes, its operand cells, and the cells left over. -/
theorem decode_ok_iff {cells rest : List Cell} {i : Instr} :
    decode cells = .ok (i, rest) ↔
      ∃ w d raw, decodeWord w = .ok d ∧ raw.length = d.op.nparams ∧ i = d.assemble raw ∧ cells = w :: (raw ++ rest) := by
  constructor
  · intro h
    cases cells with
    | nil => cases h
    | cons w tl =>
      cases hd : decodeWord w with
      | error e => simp only [decode, hd, reduceCtorEq] at h
      | ok d =>
        by_cases hn : d.op.nparams ≤ tl.length
        · simp only [decode, hd, if_pos hn, Except.ok.injEq, Prod.mk.injEq] at h
          obtain ⟨rfl, rfl⟩ := h
          have hl : (tl.take d.op.nparams).length = d.op.nparams := List.length_take_of_le hn
          refine ⟨w, d, tl.take d.op.nparams, hd, hl, ?_, by rw [List.take_append_drop]⟩
          rw [← assemble_append d (tl.drop d.op.nparams) hl, List.take_append_drop]
        · simp only [decode, hd, if_neg hn, reduceCtorEq] at h
  · rintro ⟨w, d, raw, hd, hl, rfl, rfl⟩
    simp only [decode, hd, List.length_append]
    rw [if_pos (by omega), assemble_append d rest hl, ← hl, List.drop_left]

theorem decodeWord_word {i : Instr} (h : i.WellFormed = true) : decodeWord i.word = .ok i.desc := by
  cases i with
  | add s1 s2 d ign => exact Laws.WordDecodes.add s1 s2 d ign h
  | mul s1 s2 d ign => exact Laws.WordDecodes.mul s1 s2 d ign h
  | input d ign => exact Laws.WordDecodes.input d ign h
  | output s1 ign => exact Laws.WordDecodes.output s1 ign h
  | jnz s1 s2 ign => exact Laws.WordDecodes.jnz s1 s2 ign h
  | jz s1 s2 ign => exact Laws.WordDecodes.jz s1 s2 ign h
  | lt s1 s2 d ign => exact Laws.WordDecodes.lt s1 s2 d ign h
  | eq s1 s2 d ign => exact Laws.WordDecodes.eq s1 s2 d ign h
  | hlt ign => exact Laws.WordDecodes.hlt ign h

theorem operands_length (i : Instr) : i.operands.length = i.desc.op.nparams := by cases i <;> rfl

/-- An instruction is what its descriptor makes of its operands. -/
theorem assemble_desc_operands (i : Instr) : i.desc.assemble i.operands = i := by
  cases i <;> simp [Instr.desc, Instr.operands, Desc.assemble, Src.src_mode_raw]

/-- Settles O1: the word decodes to the descriptor, which assembles with the operands to the instruction. -/
theorem decodeOfEncodeIsTheInstruction : Obligations.DecodeOfEncodeIsTheInstruction := fun i _ hi =>
  decode_ok_iff.2 ⟨i.word, i.desc, i.operands, decodeWord_word hi, operands_length i, (assemble_desc_operands i).symm, rfl⟩

/-- The word of the instruction is the word decoded, which is a cell and not negative. -/
theorem wellFormed_of_decodeWord {w : Cell} {d : Desc} (h : decodeWord w = .ok d) (raw : List Cell) :
    (d.assemble raw).WellFormed = true := by
  obtain ⟨op, ⟨hnonneg, -⟩, -⟩ := isOpcode_of_decodeWord h
  obtain ⟨-, hle⟩ := toNat_of_nonneg hnonneg
  refine (Laws.WordFits.all _).2 ?_
  rwa [Instr.wordNat, desc_of_decodeWord h, wordNat_of_decodeWord h]

/-- Settles O2: the word and the operands of the assembled instruction are the cells it was assembled from. -/
theorem encodeOfDecodeIsTheCells : Obligations.EncodeOfDecodeIsTheCells := by
  intro cells i rest h
  obtain ⟨w, d, raw, hd, hl, rfl, rfl⟩ := decode_ok_iff.1 h
  refine ⟨wellFormed_of_decodeWord hd raw, ?_⟩
  rw [encode, word_of_decodeWord hd, d.operands_assemble hl, List.cons_append]

/-- Settles O3, by evaluating the decoder on each list of cells. -/
theorem sampleWordsDecode : Obligations.SampleWordsDecode := by
  refine ⟨?_, ?_, ?_, ?_, ?_, ?_, ?_, ?_, ?_, ?_, ?_, ?_, ?_⟩ <;> decide

end Sys2Proof.Machine
end

section
/-!
PROOFS. The ends of an instruction and of a step: a fault entry, the suspension of an IN, the halt of a HLT, or a completed
instruction, whose frame `Completes` gives. The rules of the whole machine and the invariant follow from this one list.
-/

namespace Sys2Proof.Machine

/-- Memory is as it was, but for at most the cell that the write parameter of `i` names. -/
def WritesAtMostDestination (i : Instr) (s t : State) : Prop :=
  t.mem = s.mem ∨ ∃ d v, i.opcode.writeParam ≠ 0 ∧ i.operands[i.opcode.writeParam - 1]? = some d ∧ s.inBounds d ∧
    t.mem = (s.withCell d v).mem

/-- What every instruction `i` that completes does from `s` to `t`: the status is Running, MEMSIZE and the fault record
are left alone, memory changes at most at the destination, and only IN and OUT move a queue. -/
structure Completes (i : Instr) (s t : State) : Prop where
  status : t.status = .running
  memSize : t.memSize = s.memSize
  cause : t.cause = s.cause
  finfo : t.finfo = s.finfo
  mem : WritesAtMostDestination i s t
  inq : t.inq = s.inq ∨ i.opcode = .input ∧ ∃ v, s.inq = v :: t.inq
  outq : t.outq = s.outq ∨ i.opcode = .output ∧ ∃ v, t.outq = s.outq ++ [v]

theorem completes_advance (i : Instr) (n : Nat) (s : State) : Completes i s (s.advance n) :=
  ⟨rfl, rfl, rfl, rfl, .inl rfl, .inl rfl, .inl rfl⟩

theorem completes_jumpTo (i : Instr) (a : Cell) (s : State) : Completes i s (s.jumpTo a) :=
  ⟨rfl, rfl, rfl, rfl, .inl rfl, .inl rfl, .inl rfl⟩

theorem StoresAt.completes {i : Instr} {s t : State} (h : StoresAt i s t) : Completes i s t := by
  obtain ⟨d, r, hw, hd, hb, rfl⟩ := h
  exact ⟨rfl, rfl, rfl, rfl, .inr ⟨d, r, by omega, by rwa [hw], hb, rfl⟩, .inl rfl, .inl rfl⟩

/-- The four ends of an instruction. -/
theorem exec_ends {i : Instr} {s t : State} (h : exec i s = .next t) :
    (∃ e, t = takeFault e s) ∨ (i.opcode = .input ∧ s.inq = [] ∧ t = s.block) ∨ (i.opcode = .hlt ∧ t = s.halt) ∨
      Completes i s t := by
  rcases exec_cases h with ⟨e, -, rfl⟩ | ⟨d, ign, rfl, hq, rfl⟩ | ⟨ign, rfl, rfl⟩ | hstore |
    ⟨d, ign, v, q, rfl, hq, hd, rfl⟩ | ⟨s1, ign, a, rfl, -, rfl⟩ | ⟨s1, s2, ign, a, b, rfl, -, -, rfl⟩ |
    ⟨s1, s2, ign, a, b, rfl, -, -, rfl⟩
  · exact .inl ⟨e, rfl⟩
  · exact .inr (.inl ⟨rfl, hq, rfl⟩)
  · exact .inr (.inr (.inl ⟨rfl, rfl⟩))
  · exact .inr (.inr (.inr hstore.completes))
  · exact .inr (.inr (.inr ⟨rfl, rfl, rfl, rfl, .inr ⟨d, v, Nat.one_ne_zero, rfl, hd, rfl⟩, .inr ⟨rfl, v, hq⟩, .inl rfl⟩))
  · exact .inr (.inr (.inr ⟨rfl, rfl, rfl, rfl, .inl rfl, .inl rfl, .inr ⟨rfl, a, rfl⟩⟩))
  · refine .inr (.inr (.inr ?_))
    split
    · exact completes_advance _ 2 s
    · exact completes_jumpTo _ b s
  · refine .inr (.inr (.inr ?_))
    split
    · exact completes_jumpTo _ b s
    · exact completes_advance _ 2 s

/-- The four ends of a step of an active state, with the instruction at `ip` that each one but the fault needs. -/
theorem step_ends {s t : State} (ha : s.Active) (h : step s = .next t) :
    (∃ e, t = takeFault e s) ∨ (s.AtOpcode .input ∧ s.inq = [] ∧ t = s.block) ∨ (s.AtOpcode .hlt ∧ t = s.halt) ∨
      ∃ i, fetchInstr s = .ok i ∧ Completes i s t := by
  rcases step_cases ha h with ⟨e, -, rfl⟩ | ⟨i, hf, hi⟩
  · exact .inl ⟨e, rfl⟩
  · have hop := atOpcode_of_fetch hf
    rcases exec_ends hi with he | ⟨hin, hq, ht⟩ | ⟨hhlt, ht⟩ | hc
    · exact .inl he
    · exact .inr (.inl ⟨hin ▸ hop, hq, ht⟩)
    · exact .inr (.inr (.inl ⟨hhlt ▸ hop, ht⟩))
    · exact .inr (.inr (.inr ⟨i, hf, hc⟩))

/-! ## Operands in memory -/

theorem holds_of_holdsCells {s : State} {a c : Cell} {cs : List Cell} {k : Nat} (h : s.HoldsCells a cs)
    (hk : cs[k]? = some c) : s.Holds (a + BitVec.ofNat 64 k) c := by
  induction cs generalizing a k with
  | nil => cases hk
  | cons x t ih =>
    obtain ⟨hx, ht⟩ := h
    cases k with
    | zero =>
      cases hk
      simpa using hx
    | succ k =>
      have hsucc : a + BitVec.ofNat 64 (k + 1) = a + 1 + BitVec.ofNat 64 k := by
        rw [Nat.add_comm k 1, BitVec.ofNat_add, ← BitVec.add_assoc]
        rfl
      rw [hsucc]
      exact ih ht hk

/-- Operand `k` of the instruction fetched is the cell `k` places after its word. -/
theorem holds_operand_of_fetch {s : State} {i : Instr} {d : Cell} {k : Nat} (h : fetchInstr s = .ok i)
    (hk : k ≠ 0) (hd : i.operands[k - 1]? = some d) : s.Holds (s.ip + BitVec.ofNat 64 k) d := by
  obtain ⟨w, desc, raw, hw, -, hr, hl, rfl⟩ := fetchInstr_ok.1 h
  rw [desc.operands_assemble hl] at hd
  obtain ⟨k, rfl⟩ := Nat.exists_eq_succ_of_ne_zero hk
  exact holds_of_holdsCells (cs := w :: raw) ⟨hw, hr⟩ hd

/-! ## The rules -/

theorem WritesAtMostDestination.eq_destination {i : Instr} {s t : State} {x : Cell} (h : WritesAtMostDestination i s t)
    (hs : t.memSize = s.memSize) (hx : memRead t x ≠ memRead s x) :
    i.opcode.writeParam ≠ 0 ∧ i.operands[i.opcode.writeParam - 1]? = some x := by
  rcases h with hm | ⟨d, v, hw, hd, hb, hm⟩
  · exact absurd (memRead_congr hs hm x) hx
  · obtain ⟨-, hother⟩ := withCell_memSameBut hb hs hm
    obtain rfl : x = d := by
      by_contra hne
      exact hx (hother x hne)
    exact ⟨hw, hd⟩

/-- A step that completes no instruction leaves memory and the queues alone. -/
theorem step_same_or_completes {s t : State} (h : step s = .next t) :
    (t.memSize = s.memSize ∧ t.mem = s.mem ∧ t.inq = s.inq ∧ t.outq = s.outq) ∨
      ∃ i, fetchInstr s = .ok i ∧ Completes i s t := by
  by_cases ha : s.Active
  · rcases step_ends ha h with ⟨e, rfl⟩ | ⟨-, -, rfl⟩ | ⟨-, rfl⟩ | hc
    · exact .inl ⟨rfl, rfl, rfl, rfl⟩
    · exact .inl ⟨rfl, rfl, rfl, rfl⟩
    · exact .inl ⟨rfl, rfl, rfl, rfl⟩
    · exact .inr hc
  · rw [step_terminal ha] at h
    cases h
    exact .inl ⟨rfl, rfl, rfl, rfl⟩

/-- Settles O35: only a completed instruction writes memory, at its destination, an operand cell behind `ip`. -/
theorem onlyTheDestinationCellChanges : Obligations.OnlyTheDestinationCellChanges := by
  intro s t h
  rcases step_same_or_completes h with ⟨hsize, hmem, -, -⟩ | ⟨i, hf, hc⟩
  · exact ⟨hsize, fun x hx => absurd (memRead_congr hsize hmem x) hx⟩
  · refine ⟨hc.memSize, fun x hx => ?_⟩
    obtain ⟨hw, hd⟩ := hc.mem.eq_destination hc.memSize hx
    exact ⟨i.opcode, atOpcode_of_fetch hf, hw, holds_operand_of_fetch hf hw hd⟩

/-- Settles O36: only a completed instruction moves a queue, and it is an IN or an OUT. -/
theorem queuesMoveOnlyByInAndOut : Obligations.QueuesMoveOnlyByInAndOut := by
  intro s t h
  rcases step_same_or_completes h with ⟨-, -, hinq, houtq⟩ | ⟨i, hf, hc⟩
  · exact ⟨.inl hinq, .inl houtq⟩
  · have hop := atOpcode_of_fetch hf
    exact ⟨hc.inq.imp_right fun ⟨hi, hv⟩ => ⟨hi ▸ hop, hv⟩, hc.outq.imp_right fun ⟨hi, hv⟩ => ⟨hi ▸ hop, hv⟩⟩

/-- Settles O37: each end of a step writes its own status. -/
theorem onlyInBlocksAndOnlyHltHalts : Obligations.OnlyInBlocksAndOnlyHltHalts := by
  intro s t ha h
  rcases step_ends ha h with ⟨e, rfl⟩ | ⟨hin, hq, rfl⟩ | ⟨hhlt, rfl⟩ | ⟨i, -, hc⟩
  · simp
  · simp [hin, hq]
  · simp [hhlt]
  · simp [hc.status]

end Sys2Proof.Machine
end

section
/-!
PROOFS. The invariant (10_state.md sections 4 and 5): it holds at reset and after CONSTRUCT, a fault entry keeps it, and so
does every change of memory by MemWrite that leaves the fault record alone; the steps and the commands are made of these.
-/

namespace Sys2Proof.Machine

section
variable {mm : Config.MaxMem} {s t : State}

theorem inv_freshState {prog : List Cell} {size : Nat} (h1 : prog.length ≤ size) (h2 : size ≤ mm.val) :
    Inv mm (freshState prog size) where
  mem_wf := Memory.ofCells_wf 0 prog
  mem_bound p hp := by
    obtain ⟨-, hlt⟩ := Memory.ofCells_bound hp
    simp only [freshState]
    omega
  size_bound := h2
  cause_none := by simp [freshState]
  finfo_zero _ := rfl

theorem cause_ne_none (e : Exc) : e.cause ≠ .none := by cases e <;> simp [Exc.cause]

theorem Inv.takeFault (h : Inv mm s) (e : Exc) : Inv mm (takeFault e s) where
  mem_wf := h.mem_wf
  mem_bound := h.mem_bound
  size_bound := h.size_bound
  cause_none := by simp [cause_ne_none]
  finfo_zero hc := absurd hc (cause_ne_none e)

/-- Memory is as it was, but for at most one cell within it. -/
def WritesAtMostOneCell (s t : State) : Prop :=
  t.mem = s.mem ∨ ∃ a v, s.inBounds a ∧ t.mem = (s.withCell a v).mem

theorem WritesAtMostDestination.oneCell {i : Instr} (h : WritesAtMostDestination i s t) : WritesAtMostOneCell s t :=
  h.imp_right fun ⟨d, v, _, _, hb, hm⟩ => ⟨d, v, hb, hm⟩

/-- `ip` and the queues are free. -/
theorem Inv.of_frame (h : Inv mm s) (hmem : WritesAtMostOneCell s t) (hsize : t.memSize = s.memSize)
    (hcause : t.cause = s.cause) (hfinfo : t.finfo = s.finfo) (hstatus : t.status = .faulted ↔ s.status = .faulted) :
    Inv mm t where
  mem_wf := by
    rcases hmem with hm | ⟨a, v, -, hm⟩ <;> rw [hm]
    · exact h.mem_wf
    · exact Memory.set_wf h.mem_wf _ v
  mem_bound p hp := by
    rw [hsize]
    rcases hmem with hm | ⟨a, v, ⟨hlow, hhigh⟩, hm⟩ <;> rw [hm] at hp
    · exact h.mem_bound p hp
    · rcases Memory.mem_set hp with hold | ⟨rfl, -⟩
      · exact h.mem_bound p hold
      · simp only
        omega
  size_bound := hsize ▸ h.size_bound
  cause_none := by rw [hcause, h.cause_none, ne_eq, ne_eq, hstatus]
  finfo_zero hc := by rw [hfinfo, h.finfo_zero (hcause ▸ hc)]

theorem Inv.step (h : Inv mm s) (hstep : step s = .next t) : Inv mm t := by
  by_cases ha : s.Active
  · have hs : s.status ≠ .faulted := by rcases ha with hr | hb <;> simp [*]
    rcases step_ends ha hstep with ⟨e, rfl⟩ | ⟨-, -, rfl⟩ | ⟨-, rfl⟩ | ⟨i, -, hc⟩
    · exact h.takeFault e
    · exact h.of_frame (.inl rfl) rfl rfl rfl (by simp [hs])
    · exact h.of_frame (.inl rfl) rfl rfl rfl (by simp [hs])
    · exact h.of_frame hc.mem.oneCell hc.memSize hc.cause hc.finfo (by simp [hs, hc.status])
  · rw [step_terminal ha] at hstep
    cases hstep
    exact h

/-! ## Host commands -/

/-- What a data command that takes no fault does: nothing but to memory and the queues. -/
structure DataFrame (s t : State) : Prop where
  ip : t.ip = s.ip
  memSize : t.memSize = s.memSize
  status : t.status = s.status
  cause : t.cause = s.cause
  finfo : t.finfo = s.finfo
  mem : WritesAtMostOneCell s t

theorem DataFrame.refl (s : State) : DataFrame s s := ⟨rfl, rfl, rfl, rfl, rfl, .inl rfl⟩

theorem DataFrame.inv (hf : DataFrame s t) (h : Inv mm s) : Inv mm t :=
  h.of_frame hf.mem hf.memSize hf.cause hf.finfo (by rw [hf.status])

/-- A data command is a no-op in Faulted, so it has the data frame when what it does outside Faulted has it. -/
theorem dataFrame_ite {u : State} {q r : Response} (hu : DataFrame s u)
    (h : (if s.status = .faulted then (s, q) else (u, r)).1 = t) : DataFrame s t := by
  subst h
  split
  · exact DataFrame.refl s
  · exact hu

theorem hostGetMem_cases (a : Cell) (s : State) :
    DataFrame s (hostGetMem a s).1 ∨ ¬ s.inBounds a ∧ (hostGetMem a s).1 = s.faultedWith .outOfBounds a := by
  by_cases hs : s.status = .faulted
  · rw [hostGetMem, if_pos hs]
    exact .inl (DataFrame.refl s)
  · by_cases ha : s.inBounds a
    · rw [hostGetMem_inBounds hs ha]
      exact .inl (DataFrame.refl s)
    · rw [hostGetMem_outOfBounds hs ha]
      exact .inr ⟨ha, hostFault_outOfBounds_state a s⟩

theorem hostSetMem_cases (a v : Cell) (s : State) :
    DataFrame s (hostSetMem a v s).1 ∨ ¬ s.inBounds a ∧ (hostSetMem a v s).1 = s.faultedWith .outOfBounds a := by
  by_cases hs : s.status = .faulted
  · rw [hostSetMem, if_pos hs]
    exact .inl (DataFrame.refl s)
  · by_cases ha : s.inBounds a
    · rw [hostSetMem_of_memWrite hs (memWrite_inBounds v ha)]
      exact .inl ⟨rfl, rfl, rfl, rfl, rfl, .inr ⟨a, v, ha, rfl⟩⟩
    · rw [hostSetMem_outOfBounds v hs ha]
      exact .inr ⟨ha, hostFault_outOfBounds_state a s⟩

theorem hostOutPop_frame (s : State) : DataFrame s (hostOutPop s).1 := by
  by_cases hs : s.status = .faulted
  · rw [hostOutPop, if_pos hs]
    exact DataFrame.refl s
  · cases hq : s.outq with
    | nil =>
      rw [hostOutPop_of_nil hs hq]
      exact DataFrame.refl s
    | cons v q =>
      rw [hostOutPop_of_cons hs hq]
      exact ⟨rfl, rfl, rfl, rfl, rfl, .inl rfl⟩

/-- Every data command keeps the registers, or is a memory command whose bad address faults. -/
theorem perform_data_cases {fuel : Nat} {c : Command} {r : Response} (hconstruct : ∀ src cap, c ≠ .construct src cap)
    (hstep : c ≠ .step) (hrun : c ≠ .run) (h : perform mm fuel c s = some (t, r)) :
    DataFrame s t ∨
      ∃ a, ¬ s.inBounds a ∧ (c = .getMem a ∨ ∃ v, c = .setMem a v) ∧ t = s.faultedWith .outOfBounds a := by
  have hqueue {q : List Cell} : DataFrame s (s.withInq q) ∧ DataFrame s (s.withOutq q) :=
    ⟨⟨rfl, rfl, rfl, rfl, rfl, .inl rfl⟩, ⟨rfl, rfl, rfl, rfl, rfl, .inl rfl⟩⟩
  cases c with
  | construct src cap => exact absurd rfl (hconstruct src cap)
  | step => exact absurd rfl hstep
  | run => exact absurd rfl hrun
  | getMem a =>
    obtain rfl := congrArg Prod.fst (Option.some.inj h)
    exact (hostGetMem_cases a s).imp_right fun ⟨ha, ht⟩ => ⟨a, ha, .inl rfl, ht⟩
  | setMem a v =>
    obtain rfl := congrArg Prod.fst (Option.some.inj h)
    exact (hostSetMem_cases a v s).imp_right fun ⟨ha, ht⟩ => ⟨a, ha, .inr ⟨v, rfl⟩, ht⟩
  | outPop =>
    obtain rfl := congrArg Prod.fst (Option.some.inj h)
    exact .inl (hostOutPop_frame s)
  | inPush v => exact .inl (dataFrame_ite hqueue.1 (congrArg Prod.fst (Option.some.inj h)))
  | readInq => exact .inl (dataFrame_ite (DataFrame.refl s) (congrArg Prod.fst (Option.some.inj h)))
  | readOutq => exact .inl (dataFrame_ite (DataFrame.refl s) (congrArg Prod.fst (Option.some.inj h)))
  | replaceInq q => exact .inl (dataFrame_ite hqueue.1 (congrArg Prod.fst (Option.some.inj h)))
  | replaceOutq q => exact .inl (dataFrame_ite hqueue.2 (congrArg Prod.fst (Option.some.inj h)))

theorem perform_step_iff {fuel : Nat} {r : Response} :
    perform mm fuel .step s = some (t, r) ↔ step s = .next t ∧ r = .result t.result := by
  obtain ⟨u, hu⟩ := step_next s
  simp only [perform, hostStep, hu, Option.some.injEq, Prod.mk.injEq, Host.Outcome.next.injEq]
  constructor
  · rintro ⟨rfl, rfl⟩
    exact ⟨rfl, rfl⟩
  · rintro ⟨rfl, rfl⟩
    exact ⟨rfl, rfl⟩

theorem perform_run_iff {fuel : Nat} {r : Response} :
    perform mm fuel .run s = some (t, r) ↔ ∃ q, runFor fuel s = some (t, q) ∧ r = .result q := by
  cases h : runFor fuel s with
  | none => simp [perform, hostRun, h]
  | some x =>
    obtain ⟨u, q⟩ := x
    simp [perform, hostRun, h, eq_comm]

theorem Inv.runFor {fuel : Nat} {r : StepResult} (h : Inv mm s) (hrun : runFor fuel s = some (t, r)) : Inv mm t := by
  induction fuel generalizing s with
  | zero => cases hrun
  | succ n ih =>
    obtain ⟨u, hu⟩ := step_next s
    have hinv : Inv mm u := h.step hu
    by_cases hc : u.result = .cont
    · rw [runFor_of_cont n hu hc] at hrun
      exact ih hinv hrun
    · rw [runFor_of_not_cont n hu hc] at hrun
      cases hrun
      exact hinv

theorem Inv.hostConstruct (h : Inv mm s) (src : Source) (cap : Option Int) : Inv mm (hostConstruct mm src cap s).1 := by
  cases hc : construct mm src cap with
  | none =>
    simp only [Machine.hostConstruct, hc]
    exact h
  | some u =>
    simp only [Machine.hostConstruct, hc]
    obtain ⟨vs, prog, -, -, hlow, hhigh, rfl⟩ := construct_cases hc
    exact inv_freshState (by omega) (by omega)

/-- RUN of a state that a step leaves alone ends there. -/
theorem runFor_of_step_self {fuel : Nat} {r : StepResult} (hs : step s = .next s) (hres : s.result ≠ .cont)
    (h : runFor fuel s = some (t, r)) : t = s := by
  cases fuel with
  | zero => cases h
  | succ n =>
    rw [runFor_of_not_cont n hs hres] at h
    cases h
    rfl

theorem step_of_halted (hs : s.status = .halted) : step s = .next s := step_terminal (by simp [State.Active, hs])

end

/-! ## The statements -/

/-- Settles O42: the reset state is what CONSTRUCT of the empty program leaves. -/
theorem resetMeetsTheInvariant : Obligations.ResetMeetsTheInvariant :=
  ⟨fun mm => inv_freshState (prog := []) (size := 0) (Nat.le_refl 0) (Nat.zero_le mm.val), rfl, rfl, rfl, rfl, rfl, rfl⟩

/-- Settles O43: the four ends of a step, each of which keeps the invariant. -/
theorem stepKeepsTheInvariant : Obligations.StepKeepsTheInvariant := fun _ _ _ => Inv.step

/-- Settles O44: CONSTRUCT, STEP and RUN by their own lemmas, each data command by its frame or its fault entry. -/
theorem commandsKeepTheInvariant : Obligations.CommandsKeepTheInvariant := by
  intro mm fuel c s t r h hp
  by_cases hconstruct : ∃ src cap, c = .construct src cap
  · obtain ⟨src, cap, rfl⟩ := hconstruct
    obtain rfl := congrArg Prod.fst (Option.some.inj hp)
    exact h.hostConstruct src cap
  by_cases hstep : c = .step
  · subst hstep
    exact h.step (perform_step_iff.1 hp).1
  by_cases hrun : c = .run
  · subst hrun
    obtain ⟨q, hq, -⟩ := perform_run_iff.1 hp
    exact h.runFor hq
  rcases perform_data_cases (fun src cap hc => hconstruct ⟨src, cap, hc⟩) hstep hrun hp with hf | ⟨a, -, -, rfl⟩
  · exact hf.inv h
  · exact h.takeFault (.outOfBounds a)

/-- Settles O52: the two cases of a data command. -/
theorem hostCannotTouchTheRegisters : Obligations.HostCannotTouchTheRegisters := by
  intro mm fuel c s t r hconstruct hstep hrun hp
  rcases perform_data_cases hconstruct hstep hrun hp with hf | ⟨a, ha, hc, rfl⟩
  · exact ⟨hf.ip, hf.memSize, .inl ⟨hf.status, hf.cause, hf.finfo⟩⟩
  · exact ⟨rfl, rfl, .inr ⟨a, ha, hc, rfl⟩⟩

/-- Settles O54: STEP and RUN leave a halted state, and a data command keeps its registers or faults. -/
theorem haltedCannotBeRestarted : Obligations.HaltedCannotBeRestarted := by
  intro mm fuel c s t r hs hconstruct hp
  have hself : t = s → t.ip = s.ip ∧ t.memSize = s.memSize ∧
      (t.status = .halted ∨ ∃ a, ¬ s.inBounds a ∧ t = s.faultedWith .outOfBounds a) := by
    rintro rfl
    exact ⟨rfl, rfl, .inl hs⟩
  by_cases hstep : c = .step
  · subst hstep
    obtain ⟨ht, -⟩ := perform_step_iff.1 hp
    rw [step_of_halted hs] at ht
    cases ht
    exact hself rfl
  by_cases hrun : c = .run
  · subst hrun
    obtain ⟨q, hq, -⟩ := perform_run_iff.1 hp
    exact hself (runFor_of_step_self (step_of_halted hs) (by simp [result_of_halted hs]) hq)
  rcases perform_data_cases hconstruct hstep hrun hp with hf | ⟨a, ha, -, rfl⟩
  · exact ⟨hf.ip, hf.memSize, .inl (hf.status.trans hs)⟩
  · exact ⟨rfl, rfl, .inr ⟨a, ha, rfl⟩⟩

end Sys2Proof.Machine
end

section
/-!
PROOFS. The step cycle (40_step_cycle.md sections 1, 2 and 4): what a step fetches and runs, the faults of the fetch, and
the status and result that each end of an instruction leaves.
-/

namespace Sys2Proof.Machine

/-- Settles O7: the cells are what the step fetches. -/
theorem stepRunsTheDecodedInstruction : Obligations.StepRunsTheDecodedInstruction := fun _ _ _ ha hd hc =>
  step_of_fetch ha (fetchInstr_of_decode hd hc)

/-- Settles O9: the fetch reads `ip` first. -/
theorem fetchOutsideMemoryFaults : Obligations.FetchOutsideMemoryFaults := fun _ ha hip =>
  step_of_fetch_error ha (fetchInstr_of_ip_outOfBounds hip)

/-- Settles O12: the word decodes, and the operand cells are read in ascending order. -/
theorem missingOperandCellFaults : Obligations.MissingOperandCellFaults := by
  intro s w op cs ha hw hop hm hcs hl hb
  obtain ⟨d, hd, rfl⟩ := decodeWord_of_legal hop hm
  exact step_of_fetch_error ha (fetchInstr_of_operand_outOfBounds hw hd hcs hl hb)

/-- Settles O14: every arm of `exec` answers, and a step is an arm, a fault entry, or nothing. -/
theorem everyStepAnswers : Obligations.EveryStepAnswers := ⟨step_next, exec_next⟩

/-- The result is read off the status, and each status has its own. -/
theorem result_agrees (t : State) :
    (t.status = .running ↔ t.result = .cont) ∧ (t.status = .blocked ↔ t.result = .blocked) ∧
    (t.status = .halted ↔ t.result = .halted) ∧ (t.status = .faulted ↔ t.result = .faulted t.cause t.finfo) := by
  cases h : t.status <;> simp [State.result, h]

/-- Settles O16, by the ends of `exec`: each but the fault entry fixes the status by the instruction. -/
theorem statusAndResultAfterAnInstruction : Obligations.StatusAndResultAfterAnInstruction := by
  intro i s
  obtain ⟨t, ht⟩ := exec_next i s
  refine ⟨t, ht, ?_, result_agrees t⟩
  rcases exec_cases ht with ⟨e, -, rfl⟩ | ⟨d, ign, rfl, hq, rfl⟩ | ⟨ign, rfl, rfl⟩ | ⟨d, r, hw, -, -, rfl⟩ |
    ⟨d, ign, v, q, rfl, hq, -, rfl⟩ | ⟨s1, ign, a, rfl, -, rfl⟩ | ⟨s1, s2, ign, a, b, rfl, -, -, rfl⟩ |
    ⟨s1, s2, ign, a, b, rfl, -, -, rfl⟩
  · exact .inl (takeFault_status e s)
  · simp [hq]
  · simp
  · cases i with
    | add | mul | lt | eq => exact .inr (State.advance_status 3 (s.withCell d r))
    | input | output | jnz | jz | hlt => simp [Instr.opcode, Opcode.writeParam] at hw
  · simp [hq]
  · simp
  · right; split <;> simp
  · right; split <;> simp

/-! ## A placed word -/

/-- The cells are below MEMSIZE and read back from where they were stored. -/
theorem holdsCells_loadAtIp {s : State} {cs : List Cell} (hm : s.mem.wf) (hl : cs.length ≤ 4) :
    (loadAtIp s cs).HoldsCells (loadAtIp s cs).ip cs := by
  have hplace := placeAt_le s
  refine holdsCells_of_holds fun k hk => memRead_ok.2 ?_
  rw [State.inBounds, toInt_ofNat_of_le (by omega)]
  refine ⟨⟨by omega, ?_⟩, ?_⟩
  · simp only [loadAtIp]
    omega
  · rw [Int.toNat_natCast]
    exact storeCells_get hm _ k cs hk

theorem active_loadAtIp (s : State) (cs : List Cell) : (loadAtIp s cs).Active := by
  cases h : s.status <;> simp [State.Active, loadAtIp, h]

theorem decode_of_decodeTableWord {nbits w : Nat} {i : Instr} (h : decodeTableWord nbits w = some i) :
    ∃ rest, decode (tableCells nbits w) = .ok (i, rest) := by
  cases hd : decode (tableCells nbits w) with
  | error e => simp only [decodeTableWord, hd, reduceCtorEq] at h
  | ok x =>
    simp only [decodeTableWord, hd, Option.some.injEq] at h
    exact ⟨x.2, by rw [← h]⟩

/-- Settles O8: the placed cells stand at `ip`, and whatever is behind the instruction in them is not fetched. -/
theorem placedWordRunsNext : Obligations.PlacedWordRunsNext := by
  intro s nbits w i hm h
  obtain ⟨rest, hd⟩ := decode_of_decodeTableWord h
  exact step_of_fetch (active_loadAtIp s _) (fetchInstr_of_decode_rest hd (holdsCells_loadAtIp hm (Nat.le_refl 4)))

end Sys2Proof.Machine
end

section
/-!
PROOFS. Blocked and Halted (42_io.md R151; 45_halt.md R181). Nothing that a step of an active state does depends on
`status`, so a blocked IN is tried again as it was tried first; a state that a step leaves alone is left alone for ever.
-/

namespace Sys2Proof.Machine

/-- `s` but for the status. -/
abbrev State.withStatus (s : State) (x : Status) : State := { s with status := x }

section
variable (s : State) (x : Status)

theorem resolve_withStatus (p : Src) : resolve (s.withStatus x) p = resolve s p := by cases p <;> rfl

theorem resolve2_withStatus (s1 s2 : Src) : resolve2 (s.withStatus x) s1 s2 = resolve2 s s1 s2 := by
  simp only [resolve2, resolve_withStatus]

theorem finish_withStatus (r : Except Exc State) : finish (s.withStatus x) r = finish s r := by cases r <;> rfl

theorem memWrite_withStatus (a v : Cell) :
    memWrite (s.withStatus x) a v = (memWrite s a v).map fun t => t.withStatus x := by
  by_cases h : s.inBounds a
  · rw [memWrite_inBounds v h]
    exact memWrite_inBounds v h
  · rw [memWrite_outOfBounds v h]
    exact memWrite_outOfBounds v h

theorem computeStore_withStatus (s1 s2 : Src) (d : Cell) (f : Cell → Cell → Except Exc Cell) :
    computeStore (s.withStatus x) s1 s2 d f = computeStore s s1 s2 d f := by
  simp only [computeStore, resolve2_withStatus, memWrite_withStatus]
  cases resolve2 s s1 s2 with
  | error e => rfl
  | ok ab =>
    cases hf : f ab.1 ab.2 with
    | error e => simp only [hf]
    | ok r =>
      simp only [hf]
      cases memWrite s d r <;> rfl

theorem condJump_withStatus (s1 s2 : Src) (taken : Cell → Bool) :
    condJump (s.withStatus x) s1 s2 taken = condJump s s1 s2 taken := by
  simp only [condJump, resolve2_withStatus]
  rfl

/-- Every end of an instruction writes `status`, and none looks at it. -/
theorem exec_withStatus (i : Instr) : exec i (s.withStatus x) = exec i s := by
  cases i with
  | add s1 s2 d ign | mul s1 s2 d ign | lt s1 s2 d ign | eq s1 s2 d ign =>
    exact (congrArg _ (computeStore_withStatus s x s1 s2 d _)).trans (finish_withStatus s x _)
  | jnz s1 s2 ign | jz s1 s2 ign =>
    exact (congrArg _ (condJump_withStatus s x s1 s2 _)).trans (finish_withStatus s x _)
  | output s1 ign =>
    simp only [exec, execOutput, resolve_withStatus, finish_withStatus]
    rfl
  | input d ign =>
    simp only [exec, execInput, memWrite_withStatus, finish_withStatus]
    cases s.inq with
    | nil => rfl
    | cons v rest =>
      dsimp only
      cases memWrite s d v <;> rfl
  | hlt ign => rfl

variable {s x}

theorem step_withStatus (ha : s.Active) (hx : (s.withStatus x).Active) : step (s.withStatus x) = step s := by
  have hfetch : fetchInstr (s.withStatus x) = fetchInstr s := fetchInstr_congr rfl rfl rfl
  cases hf : fetchInstr s with
  | ok i => rw [step_of_fetch ha hf, step_of_fetch hx (hfetch.trans hf), exec_withStatus]
  | error e =>
    rw [step_of_fetch_error ha hf, step_of_fetch_error hx (hfetch.trans hf)]
    rfl

end

/-- Settles O38: neither status is terminal. -/
theorem blockedStepsLikeRunning : Obligations.BlockedStepsLikeRunning := fun s =>
  step_withStatus (s := s.withStatus .running) (.inl rfl) (.inr rfl)

theorem coreRun_of_step_self {s : State} (h : step s = .next s) (n : Nat) : Host.Core.run Sys2Proof.core n s = .next s := by
  induction n with
  | zero => rfl
  | succ n ih => rw [coreRun_succ n h, ih]

/-- Settles O39: the blocked state takes the same step as the state it came from, to itself. -/
theorem blockingIsIdempotent : Obligations.BlockingIsIdempotent := by
  intro s t n ha h hb
  obtain rfl := step_blocked ha h hb
  have hself : step s.block = .next s.block := (step_withStatus ha (.inr rfl)).trans h
  exact coreRun_of_step_self hself n

/-- Settles O41: a step leaves a halted state alone. -/
theorem haltIsTerminal : Obligations.HaltIsTerminal := fun _ n hs => coreRun_of_step_self (step_of_halted hs) n

/-- Settles O40: what blocked is an IN with an empty queue; after the push it finds the value, and completes. -/
theorem pushedValueCompletesTheBlockedIn : Obligations.PushedValueCompletesTheBlockedIn := by
  intro s t w d v ha hm hc hd h hb
  obtain ⟨hin, -⟩ := onlyInBlocksAndOnlyHltHalts s t ha h
  obtain ⟨⟨w', hw', hop⟩, hq⟩ := hin hb
  obtain rfl : w = w' := Except.ok.inj (hc.1.symm.trans hw')
  obtain rfl := step_blocked ha h hb
  have hpushed : (s.block.pushIn v).HoldsCells s.ip [w, d] := holdsCells_congr rfl rfl hc
  obtain ⟨ign, hstep⟩ := step_input_of_cells (s := s.block.pushIn v) (.inr rfl) hop hpushed
  obtain ⟨u, hu, hholds, ⟨hsize, hother⟩, hinq, hframe⟩ :=
    exec_input_completes (s := s.block.pushIn v) (v := v) (rest := []) ign hm (by simp [hq]) hd
  exact ⟨u, hstep.trans hu, hholds, ⟨hsize, fun x hx => (hother x hx).trans (memRead_congr rfl rfl x)⟩, hinq, hframe⟩

end Sys2Proof.Machine
end

section
/-!
PROOFS. The instructions as `exec` gives them (41_arithmetic.md to 45_halt.md): where each completes, and the fault of a
read parameter outside memory, which is the same in all that have two.
-/

namespace Sys2Proof.Machine

/-- An instruction of the storing shape completes where its operands resolve, its computation succeeds and its destination
is in memory. -/
theorem storing_completes {s : State} {s1 s2 : Src} {d a b r : Cell} {f : Cell → Cell → Except Exc Cell} (hm : s.mem.wf)
    (h1 : resolve s s1 = .ok a) (h2 : resolve s s2 = .ok b) (hd : s.inBounds d) (hf : f a b = .ok r) :
    ∃ t, finish s (computeStore s s1 s2 d f) = .next t ∧ t.Holds d r ∧ MemSameBut d s t ∧ RestSame s t ∧
      t.ip = s.ip + 4 ∧ t.status = .running :=
  ⟨_, finish_ok (computeStore_ok h1 h2 hf hd), withCell_advance_frame r hm hd⟩

/-- Settles O26: the exact result fits, so the computation succeeds. -/
theorem arithmeticCompletes : Obligations.ArithmeticCompletes := by
  intro s1 s2 d ign s a b hm h1 h2 hd
  constructor
  · intro hr
    obtain ⟨r, hf, hval⟩ := exactOrOverflow_of_inCell (w := (Instr.add s1 s2 d ign).word) hr
    obtain ⟨t, ht, hholds, hframe⟩ :=
      storing_completes (f := fun x y => exactOrOverflow _ (x.toInt + y.toInt)) hm h1 h2 hd hf
    exact ⟨t, r, ht, hholds, hval, hframe⟩
  · intro hr
    obtain ⟨r, hf, hval⟩ := exactOrOverflow_of_inCell (w := (Instr.mul s1 s2 d ign).word) hr
    obtain ⟨t, ht, hholds, hframe⟩ :=
      storing_completes (f := fun x y => exactOrOverflow _ (x.toInt * y.toInt)) hm h1 h2 hd hf
    exact ⟨t, r, ht, hholds, hval, hframe⟩

/-- A comparison that decides `P` stores 1 or 0 by `P`. -/
theorem boolCell_eq_ite {c : Bool} {P : Prop} [Decidable P] (h : c = true ↔ P) : boolCell c = if P then 1 else 0 :=
  if_congr h rfl rfl

/-- Settles O27: a comparison cannot fail, and its test is the one on integers. -/
theorem compareCompletes : Obligations.CompareCompletes := by
  intro s1 s2 d ign s a b hm h1 h2 hd
  rw [← boolCell_eq_ite signedLt_iff, ← boolCell_eq_ite beq_iff_toInt]
  exact ⟨storing_completes hm h1 h2 hd rfl, storing_completes hm h1 h2 hd rfl⟩

/-- Settles O28: the frame of an IN that finds a value and whose destination is in memory. -/
theorem inputCompletes : Obligations.InputCompletes := fun _ ign _ _ _ hm hq hd => exec_input_completes ign hm hq hd

/-- Settles O29: OUT appends its value; a jump's test, on cells, is the one on integers. -/
theorem outputAndJumpsComplete : Obligations.OutputAndJumpsComplete := by
  intro s1 s2 ign s a b h1 h2
  refine ⟨exec_output_of_ok ign h1, ?_, ?_⟩
  · refine (finish_ok (condJump_ok h1 h2)).trans ?_
    by_cases ha : a.toInt = 0
    · rw [if_pos ha, if_neg fun ht => bne_zero_iff_toInt.1 ht ha]
      rfl
    · rw [if_neg ha, if_pos (bne_zero_iff_toInt.2 ha)]
      rfl
  · refine (finish_ok (condJump_ok h1 h2)).trans ?_
    by_cases ha : a.toInt = 0
    · rw [if_pos ha, if_pos (beq_zero_iff_toInt.2 ha)]
      rfl
    · rw [if_neg ha, if_neg fun ht => ha (beq_zero_iff_toInt.1 ht)]
      rfl

/-- Settles O30: the arm of HLT. -/
theorem haltCompletes : Obligations.HaltCompletes := exec_hlt

/-- The six instructions with two read parameters, of any destination and ignored digits. -/
def twoReadInstrs (s1 s2 : Src) (d : Cell) (ign : Nat) : List Instr :=
  [.add s1 s2 d ign, .mul s1 s2 d ign, .lt s1 s2 d ign, .eq s1 s2 d ign, .jnz s1 s2 ign, .jz s1 s2 ign]

/-- Both parameters are resolved before anything else is tested. -/
theorem exec_of_resolve2_error {s : State} {s1 s2 : Src} {d : Cell} {ign : Nat} {e : Exc}
    (h : resolve2 s s1 s2 = .error e) : ∀ i ∈ twoReadInstrs s1 s2 d ign, exec i s = .next (takeFault e s) := by
  simp only [twoReadInstrs, List.forall_mem_cons, List.not_mem_nil, false_imp_iff, implies_true, and_true]
  exact ⟨finish_error (computeStore_error_operands h), finish_error (computeStore_error_operands h),
    finish_error (computeStore_error_operands h), finish_error (computeStore_error_operands h),
    finish_error (condJump_error h), finish_error (condJump_error h)⟩

/-- Settles O32: the parameter is the first that fails to resolve. -/
theorem badOperandAddressFaults : Obligations.BadOperandAddressFaults := by
  intro n p d ign s hn
  have hfail : resolve s (.pos n) = .error (.outOfBounds n) := memRead_outOfBounds hn
  exact ⟨exec_output_of_error ign hfail, exec_of_resolve2_error (resolve2_error_left hfail),
    fun a ha => exec_of_resolve2_error (resolve2_error_right ha hfail)⟩

end Sys2Proof.Machine
end

section
/-!
PROOFS. `ip` never wraps around (10_state.md section 2): a run of cells in memory ends at most at MEMSIZE, which is at
most `2^63 - 4`.
-/

namespace Sys2Proof.Machine

/-- The address behind a cell in memory is the exact successor. -/
theorem toInt_add_one {s : State} {a : Cell} (hsize : s.memSize ≤ Config.maxMemLimit) (ha : s.inBounds a) :
    (a + 1).toInt = a.toInt + 1 := by
  obtain ⟨hlow, hhigh⟩ := ha
  simp only [Config.maxMemLimit] at hsize
  rw [BitVec.toInt_add]
  exact Int.bmod_eq_of_le (by simp; omega) (by simp; omega)

/-- The address behind a run of cells in memory is the exact sum, and within MEMSIZE when the run starts there. -/
theorem toInt_add_length {s : State} {a : Cell} {cs : List Cell} (hsize : s.memSize ≤ Config.maxMemLimit)
    (hc : s.HoldsCells a cs) (ha : a.toInt ≤ s.memSize) :
    (a + BitVec.ofNat 64 cs.length).toInt = a.toInt + cs.length ∧ a.toInt + cs.length ≤ s.memSize := by
  induction cs generalizing a with
  | nil => simpa using ha
  | cons c t ih =>
    obtain ⟨hfirst, hrest⟩ := hc
    obtain ⟨hb, -⟩ := memRead_ok.1 hfirst
    have hsucc := toInt_add_one hsize hb
    obtain ⟨hsum, hle⟩ := ih hrest (by omega)
    have hadd : a + BitVec.ofNat 64 (c :: t).length = a + 1 + BitVec.ofNat 64 t.length := by
      rw [List.length_cons, Nat.add_comm, BitVec.ofNat_add, ← BitVec.add_assoc]
      rfl
    rw [hadd, hsum, hsucc, List.length_cons]
    omega

/-- Settles O34: the word and its operand cells are a run of cells in memory that starts at `ip`. -/
theorem ipNeverWraps : Obligations.IpNeverWraps := by
  intro mm s w op raw hinv hw _ hr hl
  obtain ⟨⟨hlow, hhigh⟩, -⟩ := memRead_ok.1 hw
  have hsize : s.memSize ≤ Config.maxMemLimit := hinv.size_bound.trans mm.le_limit
  obtain ⟨hsum, hle⟩ := toInt_add_length (cs := w :: raw) hsize ⟨hw, hr⟩ hhigh.le
  rw [List.length_cons, hl, Nat.add_comm op.nparams 1] at hsum hle
  rw [hsum]
  simp only [Config.maxMemLimit] at hsize
  omega

end Sys2Proof.Machine
end

section
/-!
PROOFS. CONSTRUCT (46_host_interface.md R191; 10_state.md R36): the state it leaves and the four grounds of a refusal.
-/

namespace Sys2Proof.Machine

theorem toCells_length {vs : List Int} {prog : List Cell} (h : toCells vs = some prog) : prog.length = vs.length := by
  rw [← toCells_some h, List.length_map]

/-- A cell of a fresh state holds the program's cell of that number, or 0 behind the program. -/
theorem freshState_holds (prog : List Cell) {size a : Nat} (ha : a < size) (hsize : size ≤ Config.maxMemLimit) :
    (freshState prog size).Holds (BitVec.ofNat 64 a) (prog.getD a 0) := by
  simp only [Config.maxMemLimit] at hsize
  refine memRead_ok.2 ?_
  rw [State.inBounds, toInt_ofNat_of_le (by omega), Int.toNat_natCast]
  refine ⟨⟨by omega, by simp only [freshState]; omega⟩, ?_⟩
  exact (Memory.ofCells_get 0 a prog).trans (if_pos (Nat.zero_le a))

/-- Settles O46: what CONSTRUCT leaves is a fresh state, whose size is at least the program's length and within MAXMEM. -/
theorem constructedState : Obligations.ConstructedState := by
  intro mm src cap t h
  obtain ⟨vs, prog, hv, hc, hlow, hhigh, rfl⟩ := construct_cases h
  have hlen := toCells_length hc
  have hlimit : (cap.getD vs.length).toNat ≤ Config.maxMemLimit := by
    have := mm.le_limit
    omega
  refine ⟨vs, hv, ?_, fun a ha => ⟨prog.getD a 0, freshState_holds prog (by omega) hlimit, ?_⟩, fun a ha hsize => ?_,
    rfl, rfl, rfl, rfl, rfl, rfl⟩
  · exact Int.toNat_of_nonneg (by omega)
  · have ha' : a < prog.length := hlen ▸ ha
    simp [← toCells_some hc, ha']
  · have hholds := freshState_holds prog hsize hlimit
    rwa [List.getD_eq_default _ _ (by omega)] at hholds

theorem construct_of_toCells {mm : Config.MaxMem} {src : Source} {cap : Option Int} {vs : List Int} {prog : List Cell}
    (hv : src.values = some vs) (hc : toCells vs = some prog) :
    construct mm src cap = none ↔ cap.getD vs.length < vs.length ∨ (mm.val : Int) < cap.getD vs.length := by
  simp only [construct, hv, hc, toCells_length hc, ite_eq_left_iff, reduceCtorEq, imp_false, not_not]

theorem construct_none_iff {mm : Config.MaxMem} {src : Source} {cap : Option Int} :
    construct mm src cap = none ↔
      (src.values = none ∨ ∃ vs : List Int, src.values = some vs ∧
        ((∃ v ∈ vs, ¬ InCell v) ∨ cap.getD vs.length < vs.length ∨ (mm.val : Int) < cap.getD vs.length)) := by
  cases hv : src.values with
  | none => simp [construct, hv]
  | some vs =>
    simp only [reduceCtorEq, false_or, Option.some.injEq, exists_eq_left']
    rw [← toCells_none]
    cases hc : toCells vs with
    | none => simp [construct, hv, hc]
    | some prog => simpa using construct_of_toCells hv hc

/-- Settles O47: the grounds in the order CONSTRUCT tests them. -/
theorem constructIsRefusedExactlyWhen : Obligations.ConstructIsRefusedExactlyWhen := fun _ _ _ _ =>
  ⟨construct_none_iff, fun h => by simp only [hostConstruct, h]⟩

end Sys2Proof.Machine
end

section
/-!
PROOFS. The program text (30_encoding.md R98): the parser against the grammar, from the integer to the field to the list of
fields. No field holds a comma, so the commas of a text are those between its fields.
-/

namespace Sys2Proof.Machine

/-! ## An integer -/

theorem intText_of_parseNat {ds : List Char} {n : Nat} (h : parseNat ds = some n) :
    IntText ds n ∧ IntText ('-' :: ds) (-(n : Int)) := by
  obtain ⟨hne, hdig, rfl⟩ := parseNat_some.1 h
  exact ⟨⟨ds, hne, hdig, .inl ⟨rfl, rfl⟩⟩, ⟨ds, hne, hdig, .inr ⟨rfl, rfl⟩⟩⟩

theorem parseInt_minus (ds : List Char) : parseInt ('-' :: ds) = (parseNat ds).map fun n : Nat => -(n : Int) := rfl

theorem parseInt_of_not_minus {t : List Char} (h : ∀ ds, t ≠ '-' :: ds) :
    parseInt t = (parseNat t).map fun n : Nat => (n : Int) := by
  unfold parseInt
  split
  · exact absurd rfl (h _)
  · rfl

theorem parseInt_some {t : List Char} {v : Int} : parseInt t = some v ↔ IntText t v := by
  constructor
  · intro h
    by_cases hminus : ∃ ds, t = '-' :: ds
    · obtain ⟨ds, rfl⟩ := hminus
      rw [parseInt_minus, Option.map_eq_some_iff] at h
      obtain ⟨n, hn, rfl⟩ := h
      exact (intText_of_parseNat hn).2
    · rw [parseInt_of_not_minus fun ds hds => hminus ⟨ds, hds⟩, Option.map_eq_some_iff] at h
      obtain ⟨n, hn, rfl⟩ := h
      exact (intText_of_parseNat hn).1
  · rintro ⟨ds, hne, hdig, ⟨rfl, rfl⟩ | ⟨rfl, rfl⟩⟩
    · have hminus : ∀ ds, t ≠ '-' :: ds := by
        rintro ds rfl
        exact absurd (hdig '-' List.mem_cons_self) (by decide)
      rw [parseInt_of_not_minus hminus, parseNat_some.2 ⟨hne, hdig, rfl⟩]
      rfl
    · rw [parseInt_minus, parseNat_some.2 ⟨hne, hdig, rfl⟩]
      rfl

theorem IntText.ne_nil {t : List Char} {v : Int} (h : IntText t v) : t ≠ [] := by
  obtain ⟨ds, hne, -, ⟨rfl, -⟩ | ⟨rfl, -⟩⟩ := h
  · exact hne
  · exact List.cons_ne_nil '-' ds

/-- The characters of an integer: the minus sign and the digits. -/
theorem IntText.mem {t : List Char} {v : Int} {c : Char} (h : IntText t v) (hc : c ∈ t) : c = '-' ∨ isDig c = true := by
  obtain ⟨ds, -, hdig, ⟨rfl, -⟩ | ⟨rfl, -⟩⟩ := h
  · exact .inr (hdig c hc)
  · exact (List.mem_cons.1 hc).imp_right (hdig c)

theorem IntText.notWs {t : List Char} {v : Int} (h : IntText t v) : ∀ c ∈ t, isWs c = false := by
  intro c hc
  rcases h.mem hc with rfl | hd
  · decide
  · exact isDig_notWs hd

/-! ## A field -/

/-- Trimming takes off white space and nothing else. -/
theorem trimWs_decomposition (t : List Char) :
    ∃ l r, t = l ++ trimWs t ++ r ∧ (∀ c ∈ l, isWs c = true) ∧ ∀ c ∈ r, isWs c = true := by
  have hback : trimWs t ++ ((t.dropWhile isWs).reverse.takeWhile isWs).reverse = t.dropWhile isWs := by
    rw [trimWs, ← List.reverse_append, List.takeWhile_append_dropWhile, List.reverse_reverse]
  refine ⟨t.takeWhile isWs, ((t.dropWhile isWs).reverse.takeWhile isWs).reverse, ?_, fun c hc => ?_, fun c hc => ?_⟩
  · rw [List.append_assoc, hback, List.takeWhile_append_dropWhile]
  · exact List.mem_takeWhile_imp hc
  · exact List.mem_takeWhile_imp (List.mem_reverse.1 hc)

/-- Trimming leaves what has no white space at all. -/
theorem trimWs_of_surrounded {l i r : List Char} (hl : ∀ c ∈ l, isWs c = true) (hr : ∀ c ∈ r, isWs c = true)
    (hi : i ≠ []) (hw : ∀ c ∈ i, isWs c = false) : trimWs (l ++ i ++ r) = i := by
  have hback := dropWhile_ws_append (l := r.reverse) (i := i.reverse) (fun c hc => hr c (List.mem_reverse.1 hc))
    (List.reverse_ne_nil_iff.2 hi) (fun c hc => hw c (List.mem_reverse.1 hc)) []
  rw [List.append_nil] at hback
  rw [trimWs, List.append_assoc, dropWhile_ws_append hl hi hw r, List.reverse_append, hback, List.reverse_reverse]

theorem parseInt_trimWs_some {t : List Char} {v : Int} : parseInt (trimWs t) = some v ↔ FieldText t v := by
  constructor
  · intro h
    obtain ⟨l, r, ht, hl, hr⟩ := trimWs_decomposition t
    exact ⟨l, trimWs t, r, ht, hl, hr, parseInt_some.1 h⟩
  · rintro ⟨l, i, r, rfl, hl, hr, hi⟩
    rw [trimWs_of_surrounded hl hr hi.ne_nil hi.notWs]
    exact parseInt_some.2 hi

theorem FieldText.noComma {t : List Char} {v : Int} (h : FieldText t v) : ∀ c ∈ t, c ≠ ',' := by
  obtain ⟨l, i, r, rfl, hl, hr, hi⟩ := h
  rintro c hc rfl
  rw [List.mem_append, List.mem_append] at hc
  rcases hc with (hc | hc) | hc
  · exact absurd (hl ',' hc) (by decide)
  · exact absurd (hi.mem hc) (by decide)
  · exact absurd (hr ',' hc) (by decide)

/-! ## The fields of a text -/

theorem parseFields_cons_some {f : List Char} {fs : List (List Char)} {vs : List Int} :
    parseFields (f :: fs) = some vs ↔ ∃ v us, FieldText f v ∧ parseFields fs = some us ∧ vs = v :: us := by
  simp only [← parseInt_trimWs_some, parseFields]
  cases parseInt (trimWs f) <;> cases parseFields fs <;> simp [eq_comm]

theorem parseText_of_programText {t : List Char} {vs : List Int} (h : ProgramText t vs) : parseText t = some vs := by
  induction h with
  | one t v hf =>
    rw [parseText, splitCommas_noComma hf.noComma]
    exact parseFields_cons_some.2 ⟨v, [], hf, rfl, rfl⟩
  | more t u v vs hf _ ih =>
    rw [parseText, splitCommas_comma hf.noComma]
    exact parseFields_cons_some.2 ⟨v, vs, hf, ih, rfl⟩

/-- By induction on the text's length: it is one field, or a field and a shorter text behind its first comma. -/
theorem programText_of_parseText {t : List Char} {vs : List Int} (h : parseText t = some vs) : ProgramText t vs := by
  rcases comma_cases t with hnone | ⟨f, u, rfl, hf, hlt⟩
  · rw [parseText, splitCommas_noComma hnone] at h
    obtain ⟨v, us, hv, hus, rfl⟩ := parseFields_cons_some.1 h
    cases hus
    exact .one t v hv
  · rw [parseText, splitCommas_comma hf] at h
    obtain ⟨v, us, hv, hus, rfl⟩ := parseFields_cons_some.1 h
    exact .more f u v us hv (programText_of_parseText hus)
termination_by t.length

/-- Settles O48: one direction by induction on the text's length, the other on the grammar's derivation. -/
theorem programTextIsTheGrammar : Obligations.ProgramTextIsTheGrammar := fun _ _ =>
  ⟨programText_of_parseText, parseText_of_programText⟩

end Sys2Proof.Machine
end

section
/-!
PROOFS. RUN has one outcome (46_host_interface.md R200, R201): watching it longer does not change what it returned.
-/

namespace Sys2Proof.Machine

theorem runFor_mono {m n : Nat} {s t : State} {r : StepResult} (hmn : m ≤ n) (h : runFor m s = some (t, r)) :
    runFor n s = some (t, r) := by
  obtain ⟨k, hk, hreturns⟩ := runFor_eq_some_iff.1 h
  exact runFor_eq_some_iff.2 ⟨k, hk.trans_le hmn, hreturns⟩

/-- Settles O56: two RUNs that return are compared at the longer watching time. -/
theorem runHasOneOutcome : Obligations.RunHasOneOutcome := by
  constructor
  · rintro s t u r q ⟨m, hm⟩ ⟨n, hn⟩
    have ht := runFor_mono (le_max_left m n) hm
    have hu := runFor_mono (le_max_right m n) hn
    exact Prod.mk.inj (Option.some.inj (ht.symm.trans hu))
  · intro s
    simp only [RunHangs, RunReturns, Option.eq_none_iff_forall_ne_some, Prod.forall, ne_eq, not_exists]
    exact ⟨fun h t r fuel => h fuel t r, fun h fuel t r => h t r fuel⟩

end Sys2Proof.Machine
end

section
/-!
PROOFS. Several instances (10_state.md section 8; 46_host_interface.md R203): a command reads the slot it names and writes
that slot alone.
-/

namespace Sys2Proof.Machine

section
variable {mm : Config.MaxMem} {fuel n : Nat} {c : Command} {y z : System} {r : Response}

theorem System.perform_some_iff :
    y.perform mm fuel n c = some (z, r) ↔
      ∃ x x', y.slots[n]? = some x ∧ slotPerform mm fuel c x = some (x', r) ∧ z = ⟨y.slots.set n x'⟩ := by
  simp only [System.perform]
  cases y.slots[n]? with
  | none => simp
  | some x =>
    cases hx : slotPerform mm fuel c x with
    | none => simp [hx]
    | some p =>
      obtain ⟨x', q⟩ := p
      simp [hx, eq_comm, and_comm]

theorem getElem?_set_of_getElem? {l : List (Option State)} {x : Option State} (h : l[n]? = some x) (x' : Option State) :
    (l.set n x')[n]? = some x' := by
  obtain ⟨hn, -⟩ := List.getElem?_eq_some_iff.1 h
  exact List.getElem?_set_self hn

/-- A hand-off is the pop and the push of what it gave. -/
theorem System.handOff_of_perform {y' : System} {i j : Nat} {v : Cell}
    (hpop : y.perform mm 0 i .outPop = some (y', .value v)) (hpush : y'.perform mm 0 j (.inPush v) = some (z, r)) :
    y.handOff mm i j = some z := by
  simp only [System.handOff, hpop, hpush]

theorem System.perform_outPop {s : State} {v : Cell} {q : List Cell} (hslot : y.slots[n]? = some (some s))
    (hs : s.status ≠ .faulted) (hq : s.outq = v :: q) :
    y.perform mm fuel n .outPop = some (⟨y.slots.set n (some (s.withOutq q))⟩, .value v) := by
  refine System.perform_some_iff.2 ⟨some s, some (s.withOutq q), hslot, ?_, rfl⟩
  simp only [slotPerform, Machine.perform, hostOutPop_of_cons hs hq]

theorem System.perform_inPush {s : State} (v : Cell) (hslot : y.slots[n]? = some (some s)) (hs : s.status ≠ .faulted) :
    y.perform mm fuel n (.inPush v) = some (⟨y.slots.set n (some (s.pushIn v))⟩, .ack) := by
  refine System.perform_some_iff.2 ⟨some s, some (s.pushIn v), hslot, ?_, rfl⟩
  simp only [slotPerform, Machine.perform, hostInPush_of_not_faulted v hs]

end

/-- Settles O57: the list of slots is set at another place. -/
theorem instancesShareNothing : Obligations.InstancesShareNothing := by
  intro mm fuel n m c y z r h hmn
  obtain ⟨x, x', -, -, rfl⟩ := System.perform_some_iff.1 h
  exact List.getElem?_set_ne hmn.symm

/-- Settles O58: the slot decides both the response and what is written in it. -/
theorem instancesDoNotLeak : Obligations.InstancesDoNotLeak := by
  intro mm fuel n c y y' z r hsame h
  obtain ⟨x, x', hx, hperform, rfl⟩ := System.perform_some_iff.1 h
  have hx' : y'.slots[n]? = some x := hsame.symm.trans hx
  refine ⟨⟨y'.slots.set n x'⟩, System.perform_some_iff.2 ⟨x, x', hx', hperform, rfl⟩, ?_⟩
  rw [getElem?_set_of_getElem? hx', getElem?_set_of_getElem? hx]

/-- Settles O59: the pop leaves the other slot to the push, and the push leaves the one popped. -/
theorem handOffMovesOneValue : Obligations.HandOffMovesOneValue := by
  intro mm i j y s t v q hij hi hj hs ht hq
  have hpop := System.perform_outPop (mm := mm) (fuel := 0) hi hs hq
  have hj' : (y.slots.set i (some (s.withOutq q)))[j]? = some (some t) := (List.getElem?_set_ne hij).trans hj
  have hpush := System.perform_inPush (mm := mm) (fuel := 0) (y := ⟨y.slots.set i (some (s.withOutq q))⟩) v hj' ht
  refine ⟨_, System.handOff_of_perform hpop hpush, ?_, getElem?_set_of_getElem? hj' _⟩
  exact (List.getElem?_set_ne hij.symm).trans (getElem?_set_of_getElem? hi _)

end Sys2Proof.Machine
end
